-- ==== Sys2Proof/Word.lean ====
section
/-! DEFINITION. The words of the controller: a status byte, a command word, a result word, an instant, a logic level
(spec/00_scope.md R8, spec/10_state.md R21 and R22, spec/30_encoding.md R93, R97, R98). -/
namespace Sys2Proof

/-- A status byte: bit `i` is pin `i` of its device, bit 0 the least significant (R21, R22). -/
abbrev Byte := BitVec 8

/-- A command word `CW64`, bit 63 the most significant (R93). -/
abbrev CommandWord := BitVec 64

/-- A result word `RW32` (R97). -/
abbrev ResultWord := BitVec 32

/-- An instant of the monotonic clock, `W_TIME` = 32 bits (R8, R193). -/
abbrev Instant := BitVec 32

/-- A logic level: `true` is logic high, 1; `false` is logic low, 0 (R22, R98). -/
abbrev Level := Bool

end Sys2Proof
end

