-- ==== Sys2Proof/Config.lean ====
section
/-! DEFINITION. What is fixed for one controller: the two construction parameters, the operand widths the spec decides,
and the one free value of the model (spec/00_scope.md R7, R8; spec/44_timer_utility.md R193). -/
namespace Sys2Proof

/-- The construction parameters, fixed for the life of the controller (R7): `nDev` is `N_DEV`, the device slots
reserved; `nTmr` is `N_TMR`, the timer slots. -/
structure Config where
  nDev : Nat
  nTmr : Nat
  deriving DecidableEq, Repr

/-- The parameters the spec admits: `1 <= N_DEV <= 255` and `0 <= N_TMR <= 255` (R8, D2). -/
def Config.wf (c : Config) : Bool := decide (1 ≤ c.nDev) && decide (c.nDev ≤ 255) && decide (c.nTmr ≤ 255)

/-- `N_BANK`, the capacity of the bank table: equal to `N_DEV`, since every bank takes a device (R8). -/
def Config.nBank (c : Config) : Nat := c.nDev

/-- The parameters of the instance `State.reset` stands for. DESIGN CHOICE (log 1): the spec leaves both OPEN. Unsafe
for a claim about `State.reset` alone; every statement about a step is over every value of both. -/
def Config.atReset : Config := ⟨255, 255⟩

/-- Bound of a line identifier, `2^W_LINE` (R8). -/
def Config.lineBound : Nat := 256

/-- Bound of a device count, device index, bank index or slot index operand, `2^W_DEVCNT` (R8). -/
def Config.indexBound : Nat := 256

/-- Bound of an absolute or bank-relative pin operand, `2^W_PIN` (R8). -/
def Config.pinBound : Nat := 65536

/-- Bound of a duration operand, `2^W_TIME` (R8, R193). -/
def Config.timeBound : Nat := 4294967296

/-- FREE VALUE (log 4): what the clock source would answer to the `n`-th sample that the environment has not presented
as data. Nothing is known of it; `Machine.State.sampleClock` makes it obey the one law of R193. -/
opaque Config.freeInstant : Nat → Instant

end Sys2Proof
end

