-- ==== Sys2Proof/Syntax.lean ====
section
/-! DEFINITION. The 24 host commands, one constructor per row of spec/opcode_table.json, in the abstract form that
spec/30_encoding.md R90 calls the normative one: a name and a tuple of typed operands, naturals where R91 has an index,
a pin, a line, a count or a duration. -/
namespace Sys2Proof

/-- The two bit orders of a transfer (R99). -/
inductive BitOrder where
  | lsbFirst
  | msbFirst
  deriving DecidableEq, Repr

/-- The command set of R91, in the table's order. `first` and `last` are the operands the spec writes `from` and `to`. -/
inductive Instr where
  | createBank (data clock latch count : Nat)
  | setArrayPin (p : Nat) (level : Level)
  | invertArrayPin (p : Nat)
  | readArrayPin (p : Nat)
  | getBankFromPin (p : Nat)
  | numPinsInBank (k : Nat)
  | setBankPin (k r : Nat) (level : Level)
  | invertBankPin (k r : Nat)
  | readBankPin (k r : Nat)
  | setBank (k : Nat) (level : Level)
  | invertBank (k : Nat)
  | setBanks (first last : Nat) (level : Level)
  | invertBanks (first last : Nat)
  | setBankSipo (k d : Nat) (value : Byte)
  | invertBankSipo (k d : Nat)
  | readBankSipo (k d : Nat)
  | setAllArrayPins (level : Level)
  | invertAllArrayPins
  | xferBanks (first last : Nat) (order : BitOrder)
  | xferBank (k : Nat) (order : BitOrder)
  | xferArray (order : BitOrder)
  | startTimer (slot : Nat)
  | stopTimer (slot : Nat)
  | isElapsed (slot duration : Nat)
  deriving DecidableEq, Repr

end Sys2Proof
end

