-- ==== Sys2Proof/WellFormed.lean ====
section
/-! DEFINITION. The operands a host can present: each operand below the bound its width gives it (spec/00_scope.md R8).
A value out of range for the current STATE (a bank index not allocated, a pin not active) is well-formed: R96. -/
namespace Sys2Proof

/-- A line identifier fits `W_LINE` bits. -/
def lineOk (l : Nat) : Bool := decide (l < Config.lineBound)

/-- A device count, device index, bank index or slot index fits `W_DEVCNT` bits. -/
def indexOk (k : Nat) : Bool := decide (k < Config.indexBound)

/-- An absolute or bank-relative pin fits `W_PIN` bits. -/
def pinOk (p : Nat) : Bool := decide (p < Config.pinBound)

/-- A duration fits `W_TIME` bits. -/
def durationOk (t : Nat) : Bool := decide (t < Config.timeBound)

/-- Every operand of the command is within its width (R8, R91). -/
def Instr.wf : Instr → Bool
  | .createBank data clock latch count => lineOk data && lineOk clock && lineOk latch && indexOk count
  | .setArrayPin p _ => pinOk p
  | .invertArrayPin p => pinOk p
  | .readArrayPin p => pinOk p
  | .getBankFromPin p => pinOk p
  | .numPinsInBank k => indexOk k
  | .setBankPin k r _ => indexOk k && pinOk r
  | .invertBankPin k r => indexOk k && pinOk r
  | .readBankPin k r => indexOk k && pinOk r
  | .setBank k _ => indexOk k
  | .invertBank k => indexOk k
  | .setBanks first last _ => indexOk first && indexOk last
  | .invertBanks first last => indexOk first && indexOk last
  | .setBankSipo k d _ => indexOk k && indexOk d
  | .invertBankSipo k d => indexOk k && indexOk d
  | .readBankSipo k d => indexOk k && indexOk d
  | .setAllArrayPins _ => true
  | .invertAllArrayPins => true
  | .xferBanks first last _ => indexOk first && indexOk last
  | .xferBank k _ => indexOk k
  | .xferArray _ => true
  | .startTimer slot => indexOk slot
  | .stopTimer slot => indexOk slot
  | .isElapsed slot duration => indexOk slot && durationOk duration

end Sys2Proof
end

