-- ==== Sys2Proof/Decode.lean ====
section
/-! DEFINITION. The binary command word of spec/30_encoding.md R93 to R96: its five fields, the decoder (total: every
64-bit word is one of the 24 commands or illegal, by name), and the encoder written from the same table. -/
namespace Sys2Proof

/-- The five fields of a command word (R93), as naturals (R95: `zext` of the field as it stands). -/
structure Fields where
  op : Nat
  a : Nat
  b : Nat
  c : Nat
  d : Nat
  deriving DecidableEq, Repr

/-- `op` = CW[63:56], `a` = CW[55:48], `b` = CW[47:40], `c` = CW[39:32], `d` = CW[31:0] (R93). -/
def fieldsOf (w : CommandWord) : Fields :=
  { op := w.toNat / 2 ^ 56 % 2 ^ 8
    a := w.toNat / 2 ^ 48 % 2 ^ 8
    b := w.toNat / 2 ^ 40 % 2 ^ 8
    c := w.toNat / 2 ^ 32 % 2 ^ 8
    d := w.toNat % 2 ^ 32 }

/-- The command word with the given fields (R93). -/
def wordOf (f : Fields) : CommandWord :=
  BitVec.ofNat 64 (f.op * 2 ^ 56 + f.a * 2 ^ 48 + f.b * 2 ^ 40 + f.c * 2 ^ 32 + f.d)

/-- `level` and `order` are the single bit `c[0]` (R94, R95): 1 is logic high (R98). -/
def levelOfBit (n : Nat) : Level := decide (n = 1)

/-- The bit that encodes a level (R98). -/
def bitOfLevel (v : Level) : Nat := if v then 1 else 0

/-- `LSB_FIRST = 0`, `MSB_FIRST = 1` (R99). -/
def orderOfBit (n : Nat) : BitOrder := if n = 1 then .msbFirst else .lsbFirst

/-- The bit that encodes an order (R99). -/
def bitOfOrder : BitOrder → Nat
  | .lsbFirst => 0
  | .msbFirst => 1

/-- Why a command word is illegal (R96). Either way the host sees `Err(E_ILLEGAL)`. -/
inductive IllegalWord where
  /-- `op` is not one of the 24 values of R94 -/
  | unassignedOp (op : Nat)
  /-- a reserved field or bit range of its opcode is not zero -/
  | reservedNotZero (op : Nat)
  deriving DecidableEq, Repr

/-- The command, if the reserved parts of the word are zero (R94, R96). -/
def unlessReserved (op : Nat) (reservedZero : Bool) (i : Instr) : Except IllegalWord Instr :=
  if reservedZero then .ok i else .error (.reservedNotZero op)

/-- The table of R94, one row per opcode: which fields carry operands, and which must be zero. -/
def decodeFields (f : Fields) : Except IllegalWord Instr :=
  match f.op with
  | 0x01 => unlessReserved f.op (decide (f.d < 256)) (.createBank f.a f.b f.c f.d)
  | 0x10 => unlessReserved f.op (f.a == 0 && f.b == 0 && decide (f.c < 2) && decide (f.d < 65536)) (.setArrayPin f.d (levelOfBit f.c))
  | 0x11 => unlessReserved f.op (f.a == 0 && f.b == 0 && f.c == 0 && decide (f.d < 65536)) (.invertArrayPin f.d)
  | 0x12 => unlessReserved f.op (f.a == 0 && f.b == 0 && f.c == 0 && decide (f.d < 65536)) (.readArrayPin f.d)
  | 0x13 => unlessReserved f.op (f.a == 0 && f.b == 0 && f.c == 0 && decide (f.d < 65536)) (.getBankFromPin f.d)
  | 0x14 => unlessReserved f.op (f.b == 0 && f.c == 0 && f.d == 0) (.numPinsInBank f.a)
  | 0x20 => unlessReserved f.op (f.b == 0 && decide (f.c < 2) && decide (f.d < 65536)) (.setBankPin f.a f.d (levelOfBit f.c))
  | 0x21 => unlessReserved f.op (f.b == 0 && f.c == 0 && decide (f.d < 65536)) (.invertBankPin f.a f.d)
  | 0x22 => unlessReserved f.op (f.b == 0 && f.c == 0 && decide (f.d < 65536)) (.readBankPin f.a f.d)
  | 0x30 => unlessReserved f.op (f.b == 0 && decide (f.c < 2) && f.d == 0) (.setBank f.a (levelOfBit f.c))
  | 0x31 => unlessReserved f.op (f.b == 0 && f.c == 0 && f.d == 0) (.invertBank f.a)
  | 0x32 => unlessReserved f.op (decide (f.c < 2) && f.d == 0) (.setBanks f.a f.b (levelOfBit f.c))
  | 0x33 => unlessReserved f.op (f.c == 0 && f.d == 0) (.invertBanks f.a f.b)
  | 0x40 => unlessReserved f.op (f.d == 0) (.setBankSipo f.a f.b (BitVec.ofNat 8 f.c))
  | 0x41 => unlessReserved f.op (f.c == 0 && f.d == 0) (.invertBankSipo f.a f.b)
  | 0x42 => unlessReserved f.op (f.c == 0 && f.d == 0) (.readBankSipo f.a f.b)
  | 0x50 => unlessReserved f.op (f.a == 0 && f.b == 0 && decide (f.c < 2) && f.d == 0) (.setAllArrayPins (levelOfBit f.c))
  | 0x51 => unlessReserved f.op (f.a == 0 && f.b == 0 && f.c == 0 && f.d == 0) .invertAllArrayPins
  | 0x60 => unlessReserved f.op (decide (f.c < 2) && f.d == 0) (.xferBanks f.a f.b (orderOfBit f.c))
  | 0x61 => unlessReserved f.op (f.b == 0 && decide (f.c < 2) && f.d == 0) (.xferBank f.a (orderOfBit f.c))
  | 0x62 => unlessReserved f.op (f.a == 0 && f.b == 0 && decide (f.c < 2) && f.d == 0) (.xferArray (orderOfBit f.c))
  | 0x70 => unlessReserved f.op (f.b == 0 && f.c == 0 && f.d == 0) (.startTimer f.a)
  | 0x71 => unlessReserved f.op (f.b == 0 && f.c == 0 && f.d == 0) (.stopTimer f.a)
  | 0x72 => unlessReserved f.op (f.b == 0 && f.c == 0) (.isElapsed f.a f.d)
  | op => .error (.unassignedOp op)

/-- The command a word stands for, or why it is illegal (R93 to R96). -/
def decode (w : CommandWord) : Except IllegalWord Instr := decodeFields (fieldsOf w)

/-- The fields of each command, from the same table (R94). -/
def encodeFields : Instr → Fields
  | .createBank data clock latch count => ⟨0x01, data, clock, latch, count⟩
  | .setArrayPin p level => ⟨0x10, 0, 0, bitOfLevel level, p⟩
  | .invertArrayPin p => ⟨0x11, 0, 0, 0, p⟩
  | .readArrayPin p => ⟨0x12, 0, 0, 0, p⟩
  | .getBankFromPin p => ⟨0x13, 0, 0, 0, p⟩
  | .numPinsInBank k => ⟨0x14, k, 0, 0, 0⟩
  | .setBankPin k r level => ⟨0x20, k, 0, bitOfLevel level, r⟩
  | .invertBankPin k r => ⟨0x21, k, 0, 0, r⟩
  | .readBankPin k r => ⟨0x22, k, 0, 0, r⟩
  | .setBank k level => ⟨0x30, k, 0, bitOfLevel level, 0⟩
  | .invertBank k => ⟨0x31, k, 0, 0, 0⟩
  | .setBanks first last level => ⟨0x32, first, last, bitOfLevel level, 0⟩
  | .invertBanks first last => ⟨0x33, first, last, 0, 0⟩
  | .setBankSipo k d value => ⟨0x40, k, d, value.toNat, 0⟩
  | .invertBankSipo k d => ⟨0x41, k, d, 0, 0⟩
  | .readBankSipo k d => ⟨0x42, k, d, 0, 0⟩
  | .setAllArrayPins level => ⟨0x50, 0, 0, bitOfLevel level, 0⟩
  | .invertAllArrayPins => ⟨0x51, 0, 0, 0, 0⟩
  | .xferBanks first last order => ⟨0x60, first, last, bitOfOrder order, 0⟩
  | .xferBank k order => ⟨0x61, k, 0, bitOfOrder order, 0⟩
  | .xferArray order => ⟨0x62, 0, 0, bitOfOrder order, 0⟩
  | .startTimer slot => ⟨0x70, slot, 0, 0, 0⟩
  | .stopTimer slot => ⟨0x71, slot, 0, 0, 0⟩
  | .isElapsed slot duration => ⟨0x72, slot, 0, 0, duration⟩

/-- The command word of a well-formed command (R93, R94). -/
def encode (i : Instr) : CommandWord := wordOf (encodeFields i)

/-- The command word that a table word of `nbits` bits stands for: bit 0 the least significant bit, every bit above
`nbits` zero. One command is one 64-bit word (R93), presented whole, so no byte order arises. -/
def commandWordOfTable (nbits w : Nat) : CommandWord := BitVec.ofNat 64 (w % 2 ^ nbits)

/-- The command the decoder reads from a table word; `none` where it refuses it. -/
def decodeTableWord (nbits w : Nat) : Option Instr :=
  match decode (commandWordOfTable nbits w) with
  | .ok i => some i
  | .error _ => none

end Sys2Proof
end

