-- ==== Sys2Proof/Machine/State.lean ====
section
/-! DEFINITION. The state of one controller (spec/10_state.md R20 to R39), the ways a step can stop, and the state
right after construction (R45 to R51). Plain data throughout. -/
namespace Sys2Proof.Machine

/-- The failure kinds a command can report (spec/60_exceptions.md R201). -/
inductive FailKind where
  /-- `E_CREATE`: CREATE_BANK with `count = 0` or beyond the remaining capacity -/
  | eCreate
  /-- `E_PIN`: an absolute pin that is not active -/
  | ePin
  /-- `E_BANK`: a bank index that is not allocated -/
  | eBank
  /-- `E_DEVICE`: a device index that is not in that bank -/
  | eDevice
  /-- `E_ILLEGAL`: an illegal command word -/
  | eIllegal
  deriving DecidableEq, Repr

/-- What a command returns (spec/30_encoding.md R97): `Ok(v)`, `Ok()` or `Err(K)`. -/
inductive Result where
  | okVal (v : Nat)
  | okUnit
  | err (kind : FailKind)
  deriving DecidableEq, Repr

/-- `LINE[l].dir` (R33). -/
inductive LineDir where
  | unconfigured
  | output
  deriving DecidableEq, Repr

/-- `LINE[l].level` (R33): unknown until the first write. -/
inductive LineLevel where
  | unknown
  | known (v : Level)
  deriving DecidableEq, Repr

/-- `LINE[l]`, the controller's image of one digital output (R33). -/
structure LineImage where
  dir : LineDir
  level : LineLevel
  deriving DecidableEq, Repr

/-- The image of a line never touched (R49). -/
def LineImage.untouched : LineImage := ⟨.unconfigured, .unknown⟩

/-- One line event (R11, R34): `cfg l` is `Cfg(l)`, `wr l v` is `Wr(l, v)`. -/
inductive LineEvent where
  | cfg (l : Nat)
  | wr (l : Nat) (v : Level)
  deriving DecidableEq, Repr

/-- A valid bank descriptor (R25). -/
structure Bank where
  data : Nat
  clock : Nat
  latch : Nat
  count : Nat
  low : Nat
  high : Nat
  deriving DecidableEq, Repr

/-- A timer slot (R31): idle, or counting from a start instant. An idle slot holds no instant (U5). -/
inductive Timer where
  | idle
  | counting (start : Instant)
  deriving DecidableEq, Repr

/-- Memory: bytes by address, addresses strictly rising, no entry equal to what an unlisted byte reads as (0x00, R45). -/
abbrev Memory := List Host.Cell

/-- Why the machine stops with a fault. The hardware itself has no fault (R200): a failing command is a next state. -/
inductive Fault where
  /-- Raised by `State.withBytes` and the transfers: a status byte index of `N_DEV` or more, which does not exist (R21,
  U2). Safe: only a state that breaks `Inv` can raise it. -/
  | statusByteAbsent
  deriving DecidableEq, Repr

/-- Why the machine gives no next state without a fault. -/
inductive Refusal where
  /-- Raised by an arm of `exec` whose command has no meaning yet; no arm does. Safe. -/
  | notModelled (mnemonic : String)
  /-- Raised by `step`: the host has issued no command, so there is no step to take (R9, R36). Safe. -/
  | noCommand
  /-- Raised by START_TIMER and IS_ELAPSED: the environment presents a clock sample smaller than an earlier one, which
  is no run of the model (U3: refuse). Safe. -/
  | clockWentBackwards
  deriving DecidableEq, Repr

/-- The complete state (R20), and the model's own fields for the environment (R38). -/
structure State where
  /-- `N_DEV` and `N_TMR`, constant (R7) -/
  cfg : Config
  /-- `SB[0 .. N_DEV-1]` (R21) -/
  sb : Memory
  /-- `BANK[0 .. BANKS_USED-1]`, the valid descriptors in creation order (R25, U4) -/
  banks : List Bank
  /-- `DEV_USED` (R28) -/
  devUsed : Nat
  /-- `PINS_ACTIVE` (R28) -/
  pinsActive : Nat
  /-- `TMR[0 .. N_TMR-1]` by slot, an unlisted slot is idle (R31, R48) -/
  tmr : List (Nat × Timer)
  /-- `LINE[l]` by line identifier, an unlisted line is untouched (R33, R49) -/
  line : List (Nat × LineImage)
  /-- `RESULT` (R35) -/
  result : Result
  /-- the line-event trace, oldest first (R34) -/
  trace : List LineEvent
  /-- environment: the command words the host has issued, oldest first (R36, R93) -/
  commands : List CommandWord
  /-- environment: the clock samples presented and not yet taken, oldest first (R193) -/
  clock : List Instant
  /-- environment: the newest clock sample taken, for the law of R193 -/
  lastSample : Instant
  /-- free value: how many clock samples were drawn from `Config.freeInstant` -/
  draws : Nat
  deriving DecidableEq, Repr

/-- `BANKS_USED`: the table is a list of that length (R25, R28, U4). -/
def State.banksUsed (s : State) : Nat := s.banks.length

/-- The state right after a successful construction with parameters `c` (R45 to R51). -/
def State.fresh (c : Config) : State :=
  { cfg := c
    sb := []
    banks := []
    devUsed := 0
    pinsActive := 0
    tmr := []
    line := []
    result := .okUnit
    trace := []
    commands := []
    clock := []
    lastSample := 0
    draws := 0 }

/-- The machine right after reset, which on this hardware is construction (R230, R51). -/
def State.reset : State := State.fresh Config.atReset

end Sys2Proof.Machine
end

