-- ==== Sys2Proof/Machine/Table.lean ====
section
/-! DEFINITION. Data by key in one canonical form: keys strictly rising, no entry equal to what an unlisted key reads as.
The status bytes, the timer slots and the line images are kept this way. -/
namespace Sys2Proof.Machine

/-- What the table holds at `key`; `dflt` is what an unlisted key reads as. -/
def Table.get {α : Type} (dflt : α) : List (Nat × α) → Nat → α
  | [], _ => dflt
  | entry :: rest, key => if key = entry.1 then entry.2 else Table.get dflt rest key

/-- The table with `v` at `key`, in canonical form: writing the default removes the entry. -/
def Table.put {α : Type} [DecidableEq α] (dflt : α) : List (Nat × α) → Nat → α → List (Nat × α)
  | [], key, v => if v = dflt then [] else [(key, v)]
  | entry :: rest, key, v =>
    if key < entry.1 then if v = dflt then entry :: rest else (key, v) :: entry :: rest
    else if key = entry.1 then if v = dflt then rest else (key, v) :: rest
    else entry :: Table.put dflt rest key v

/-- The canonical form. -/
abbrev Table.wf {α : Type} (dflt : α) (t : List (Nat × α)) : Prop :=
  t.Pairwise (fun x y => x.1 < y.1) ∧ ∀ entry ∈ t, entry.2 ≠ dflt

/-- What a status byte that nothing has written reads as: the reset content (R45). -/
def Memory.unlisted : Byte := 0x00#8

/-- `SB[i]`, the spec's `MemRead(i, 1)` (spec/00_scope.md section 5). -/
def Memory.read (m : Memory) (i : Nat) : Byte := Table.get Memory.unlisted m i

/-- `SB[i] <- v`, the spec's `MemWrite(i, 1, v)`. -/
def Memory.write (m : Memory) (i : Nat) (v : Byte) : Memory := Table.put Memory.unlisted m i v

/-- The memory is in canonical form. -/
abbrev Memory.wf (m : Memory) : Prop := Table.wf Memory.unlisted m

end Sys2Proof.Machine
end

