-- ==== Sys2Proof/Machine/Operands.lean ====
section
/-! DEFINITION. Pin/Byte Addressing: the mappings of spec/20_memory.md R61 to R66, and the one-byte arithmetic of R77(h). -/
namespace Sys2Proof.Machine

/-- `status_byte_index = absolute_pin / 8` (R61). -/
def pinByte (p : Nat) : Nat := p / 8

/-- `bit_index = absolute_pin % 8` (R61). -/
def pinBit (p : Nat) : Nat := p % 8

/-- `v[j] <- b`: bit `j` of a byte, the other seven unchanged (R62, R77(h)). -/
def setBit (v : Byte) (j : Nat) (b : Level) : Byte := if b then v ||| (1#8 <<< j) else v &&& ~~~(1#8 <<< j)

/-- `FILL(level)`: `0xFF` for 1, `0x00` for 0 (spec/42_bank_device_array.md). -/
def fill (level : Level) : Byte := if level then 0xFF#8 else 0x00#8

/-- The number a level result carries (R98). -/
def levelNat (level : Level) : Nat := if level then 1 else 0

/-- A bank-relative pin as an absolute one: `BANK[k].low + r`, no wrap and no bank-local bound (R63). -/
def Bank.absPin (b : Bank) (r : Nat) : Nat := b.low + r

/-- The first status byte of a bank: `BANK[k].low div 8` (R65). -/
def Bank.base (b : Bank) : Nat := b.low / 8

/-- The status byte of device `d` of a bank (R64). -/
def Bank.deviceByte (b : Bank) (d : Nat) : Nat := b.base + d

/-- The pin is in the bank's inclusive range `[low, high]` (R66). -/
def Bank.hasPin (b : Bank) (p : Nat) : Bool := decide (b.low ≤ p) && decide (p ≤ b.high)

/-- `from <= to < BANKS_USED`, the one test of every range command (R71, R171). -/
def State.rangeValid (s : State) (first last : Nat) : Bool := decide (first ≤ last) && decide (last < s.banksUsed)

/-- The descriptors of banks `first..last`, ascending (R65, D14). -/
def State.bankRange (s : State) (first last : Nat) : List Bank := (s.banks.drop first).take (last + 1 - first)

/-- The linear scan of GET_BANK_FROM_PIN: the index of the first bank that contains the pin, `k` being the index of
the first bank of the list (R66, R136). -/
def scanBanks (p : Nat) : List Bank → Nat → Option Nat
  | [], _ => none
  | b :: rest, k => if b.hasPin p then some k else scanBanks p rest (k + 1)

/-- The level of absolute pin `p`: `SB[p div 8][p mod 8]` (R61). -/
def State.pin (s : State) (p : Nat) : Level := (s.sb.read (pinByte p)).getLsbD (pinBit p)

/-- `SB[p div 8][p mod 8] <- level` (R61). -/
def State.setPin (s : State) (p : Nat) (level : Level) : State :=
  { s with sb := s.sb.write (pinByte p) (setBit (s.sb.read (pinByte p)) (pinBit p) level) }

/-- `TMR[slot]` (R31). -/
def State.timer (s : State) (slot : Nat) : Timer := Table.get .idle s.tmr slot

/-- `LINE[l]` (R33). -/
def State.lineImage (s : State) (l : Nat) : LineImage := Table.get LineImage.untouched s.line l

/-- The status bytes in index order, as the spec's tables list them. -/
def State.bytes (s : State) : List Byte := (List.range s.cfg.nDev).map s.sb.read

end Sys2Proof.Machine
end

