-- ==== Sys2Proof/Machine/Flags.lean ====
section
/-! DEFINITION. The two flag-like pieces of state (spec/10_state.md R39): the status part of `RESULT`, with the result word
of spec/30_encoding.md R97, and `TMR[s].counting`. The hardware has no arithmetic flag. -/
namespace Sys2Proof.Machine

/-- The code of a failure kind, `0x1` to `0x4` and `0xF` (R97, R201). -/
def FailKind.code : FailKind → Nat
  | .eCreate => 0x1
  | .ePin => 0x2
  | .eBank => 0x3
  | .eDevice => 0x4
  | .eIllegal => 0xF

/-- `STATUS` of a result: 0 is `OK` (R97). -/
def Result.status : Result → Nat
  | .okVal _ => 0x0
  | .okUnit => 0x0
  | .err kind => kind.code

/-- `VALUE` of a result: 0 for `Ok()` and on failure (R97). -/
def Result.value : Result → Nat
  | .okVal v => v
  | .okUnit => 0
  | .err _ => 0

/-- The result word: `RW[31:28] = STATUS`, `RW[27:16] = 0`, `RW[15:0] = VALUE` (R97). -/
def Result.word (r : Result) : ResultWord := BitVec.ofNat 32 (r.status * 2 ^ 28 + r.value % 2 ^ 16)

/-- The result reports success (R97). -/
def Result.ok : Result → Bool
  | .okVal _ => true
  | .okUnit => true
  | .err _ => false

/-- `TMR[s].counting` (R31). -/
def Timer.isCounting : Timer → Bool
  | .idle => false
  | .counting _ => true

/-- `TMR[slot] <- t` (R31). -/
def State.setTimer (s : State) (slot : Nat) (t : Timer) : State := { s with tmr := Table.put .idle s.tmr slot t }

/-- `RESULT <- r` (R35). -/
def State.setResult (s : State) (r : Result) : State := { s with result := r }

end Sys2Proof.Machine
end

