-- ==== Sys2Proof/Machine/Ops.lean ====
section
/-! DEFINITION. The shared operations of the commands: how a command ends (success, failure), the guarded accesses to
banks, devices and status bytes, the pin operations, the byte runs, the line drivers, the clock sample, and the host's
command port. -/
namespace Sys2Proof.Machine

/-- `return Ok(v)` (R97). -/
def State.succeed (s : State) (v : Nat) : Host.Outcome State Fault Refusal := .next (s.setResult (.okVal v))

/-- `return Ok()` (R97), also the end of a silent no-op (R204). -/
def State.done (s : State) : Host.Outcome State Fault Refusal := .next (s.setResult .okUnit)

/-- `return Err(kind)`: the hardware's only exception. `RESULT` alone is written; control goes nowhere, nothing is saved,
no mode changes (R200, R203, R208). -/
def State.fail (s : State) (kind : FailKind) : Host.Outcome State Fault Refusal := .next (s.setResult (.err kind))

/-- Status bytes `first .. first + n - 1` exist (R21). -/
def State.hasBytes (s : State) (first n : Nat) : Bool := decide (first + n ≤ s.cfg.nDev)

/-- Goes on if the status bytes exist; a byte outside `SB[0 .. N_DEV-1]` cannot be accessed (R21, U2). -/
def State.withBytes (s : State) (first n : Nat) (go : Host.Outcome State Fault Refusal) : Host.Outcome State Fault Refusal :=
  if s.hasBytes first n then go else .fault .statusByteAbsent

/-- Goes on with descriptor `k`, or fails with `E_BANK` when `k >= BANKS_USED` (R71, R206). -/
def State.withBank (s : State) (k : Nat) (go : Bank → Host.Outcome State Fault Refusal) : Host.Outcome State Fault Refusal :=
  match s.banks[k]? with
  | none => s.fail .eBank
  | some b => go b

/-- Goes on with the status byte index of device `d` of bank `k`: the bank is checked first, then the device (R155,
R206). -/
def State.withDevice (s : State) (k d : Nat) (go : Nat → Host.Outcome State Fault Refusal) : Host.Outcome State Fault Refusal :=
  s.withBank k fun b =>
    if b.count ≤ d then s.fail .eDevice
    else s.withBytes (b.deviceByte d) 1 (go (b.deviceByte d))

/-- Goes on if pin `p` is active, or fails with `E_PIN` (R71, R130). -/
def State.withPin (s : State) (p : Nat) (go : Host.Outcome State Fault Refusal) : Host.Outcome State Fault Refusal :=
  if s.pinsActive ≤ p then s.fail .ePin else s.withBytes (pinByte p) 1 go

/-- The body of SET_ARRAY_PIN, to which SET_BANK_PIN delegates (R130, R133). -/
def State.setArrayPin (s : State) (p : Nat) (level : Level) : Host.Outcome State Fault Refusal :=
  s.withPin p ((s.setPin p level).succeed p)

/-- The body of INVERT_ARRAY_PIN, to which INVERT_BANK_PIN delegates (R131, R134). -/
def State.invertArrayPin (s : State) (p : Nat) : Host.Outcome State Fault Refusal :=
  s.withPin p ((s.setPin p (!s.pin p)).succeed (levelNat (!s.pin p)))

/-- The body of READ_ARRAY_PIN, to which READ_BANK_PIN delegates (R132, R135). -/
def State.readArrayPin (s : State) (p : Nat) : Host.Outcome State Fault Refusal :=
  s.withPin p (s.succeed (levelNat (s.pin p)))

/-- `for i in 0..n-1: SB[first + i] <- f(SB[first + i])`, ascending (R152, R153, R158, R159). -/
def Memory.mapRun (f : Byte → Byte) (m : Memory) (first n : Nat) : Memory :=
  (List.range n).foldl (fun m i => m.write (first + i) (f (m.read (first + i)))) m

/-- The bytes of each bank of the list, in order (R65). -/
def Memory.mapBanks (f : Byte → Byte) (m : Memory) (bs : List Bank) : Memory :=
  bs.foldl (fun m b => m.mapRun f b.base b.count) m

/-- Goes on with banks `first..last` if the range is valid and their bytes exist; a malformed range is a silent no-op
(R152, R171, R204). -/
def State.withRange (s : State) (first last : Nat) (go : List Bank → Host.Outcome State Fault Refusal) :
    Host.Outcome State Fault Refusal :=
  if s.rangeValid first last then
    if (s.bankRange first last).all (fun b => s.hasBytes b.base b.count) then go (s.bankRange first last)
    else .fault .statusByteAbsent
  else s.done

/-- The body of SET_BANKS and INVERT_BANKS: every byte of banks `first..last` through `f` (R152, R153). -/
def State.mapBankRange (s : State) (first last : Nat) (f : Byte → Byte) : Host.Outcome State Fault Refusal :=
  s.withRange first last fun bs => State.done { s with sb := s.sb.mapBanks f bs }

/-- Every reserved status byte, allocated or not, through `f` (R158, R159). -/
def State.mapAllBytes (s : State) (f : Byte → Byte) : State := { s with sb := s.sb.mapRun f 0 s.cfg.nDev }

/-- The line an event is about. -/
def LineEvent.line : LineEvent → Nat
  | .cfg l => l
  | .wr l _ => l

/-- What an event does to the image of its own line: `Cfg` sets `dir`, `Wr` sets `level` (R33). -/
def LineEvent.apply (e : LineEvent) (image : LineImage) : LineImage :=
  match e with
  | .cfg _ => { image with dir := .output }
  | .wr _ v => { image with level := .known v }

/-- `LINE` after one event (R33). -/
def applyEvent (lines : List (Nat × LineImage)) (e : LineEvent) : List (Nat × LineImage) :=
  Table.put LineImage.untouched lines e.line (e.apply (Table.get LineImage.untouched lines e.line))

/-- Emits the events in order: each is appended to the trace and updates the image of its line; none is merged, reordered
or dropped (R33, R34, R212). -/
def State.emit (s : State) (events : List LineEvent) : State :=
  { s with line := events.foldl applyEvent s.line, trace := s.trace ++ events }

/-- `Now()`: one sample of the clock (R193). The environment's next presented sample, if it has presented one; otherwise
a free value not below the newest sample. `none` where the presented sample is below an earlier one, which is no run (U3). -/
def State.sampleClock (s : State) : Option (Instant × State) :=
  match s.clock with
  | now :: later => if s.lastSample ≤ now then some (now, { s with clock := later, lastSample := now }) else none
  | [] =>
    let drawn := Config.freeInstant s.draws
    let now := if s.lastSample ≤ drawn then drawn else s.lastSample
    some (now, { s with lastSample := now, draws := s.draws + 1 })

/-- Goes on with one clock sample and the state after it was taken. -/
def State.withSample (s : State) (go : Instant → State → Host.Outcome State Fault Refusal) : Host.Outcome State Fault Refusal :=
  match s.sampleClock with
  | none => .refused .clockWentBackwards
  | some (now, t) => go now t

/-- The host's next command word, and the state once it is taken (R36). -/
def State.fetch (s : State) : Option (CommandWord × State) :=
  match s.commands with
  | [] => none
  | w :: later => some (w, { s with commands := later })

/-- The host issues one command word, to be run next; what was waiting stays behind it. -/
def State.issue (s : State) (w : CommandWord) : State := { s with commands := w :: s.commands }

/-- The read-only counter views of R29. -/
structure Views where
  nDev : Nat
  nTmr : Nat
  devUsed : Nat
  pinsActive : Nat
  banksUsed : Nat
  deriving DecidableEq, Repr

/-- The five values the host can read between commands, with no side effect (R29). -/
def State.views (s : State) : Views := ⟨s.cfg.nDev, s.cfg.nTmr, s.devUsed, s.pinsActive, s.banksUsed⟩

/-- What the outside can observe between commands (R11): the result, the trace, the views. -/
structure Observation where
  result : ResultWord
  trace : List LineEvent
  views : Views
  deriving DecidableEq, Repr

/-- The observation of R11. -/
def State.observe (s : State) : Observation := ⟨s.result.word, s.trace, s.views⟩

end Sys2Proof.Machine
end

