-- ==== Sys2Proof/Machine/Allocator.lean ====
section
/-! DEFINITION. The Bank Allocator: CREATE_BANK (spec/40_bank_allocator.md R120 to R122). -/
namespace Sys2Proof.Machine

/-- The six events of CREATE_BANK, in the order the spec fixes: data, clock, latch, each configured and then driven low
(R120, D13; log 6). -/
def createEvents (data clock latch : Nat) : List LineEvent :=
  [.cfg data, .wr data false, .cfg clock, .wr clock false, .cfg latch, .wr latch false]

/-- The descriptor CREATE_BANK appends: `low = PINS_ACTIVE`, `high = low + count*8 - 1` (R120). -/
def State.newBank (s : State) (data clock latch count : Nat) : Bank :=
  { data := data, clock := clock, latch := latch, count := count, low := s.pinsActive, high := s.pinsActive + count * 8 - 1 }

/-- The state after the allocation: one descriptor more and the counters advanced; `SB` untouched (R120, R242). -/
def State.allocate (s : State) (b : Bank) : State :=
  { s with banks := s.banks ++ [b], devUsed := s.devUsed + b.count, pinsActive := s.pinsActive + b.count * 8 }

/-- CREATE_BANK (R120). -/
def execCreateBank (data clock latch count : Nat) (s : State) : Host.Outcome State Fault Refusal :=
  if count = 0 ∨ s.cfg.nDev < s.devUsed + count then s.fail .eCreate
  else ((s.emit (createEvents data clock latch)).allocate (s.newBank data clock latch count)).succeed s.banksUsed

end Sys2Proof.Machine
end

