-- ==== Sys2Proof/Machine/BankOps.lean ====
section
/-! DEFINITION. Whole-bank, bank-range, whole-device and whole-array commands (spec/42_bank_device_array.md R150 to R160). -/
namespace Sys2Proof.Machine

/-- SET_BANK: the range form with `from = to = k` (R150). -/
def execSetBank (k : Nat) (level : Level) (s : State) : Host.Outcome State Fault Refusal :=
  s.mapBankRange k k (fun _ => fill level)

/-- INVERT_BANK: the range form with `from = to = k` (R151). -/
def execInvertBank (k : Nat) (s : State) : Host.Outcome State Fault Refusal := s.mapBankRange k k (fun v => ~~~v)

/-- SET_BANKS (R152). -/
def execSetBanks (first last : Nat) (level : Level) (s : State) : Host.Outcome State Fault Refusal :=
  s.mapBankRange first last (fun _ => fill level)

/-- INVERT_BANKS (R153). -/
def execInvertBanks (first last : Nat) (s : State) : Host.Outcome State Fault Refusal :=
  s.mapBankRange first last (fun v => ~~~v)

/-- SET_BANK_SIPO: the success value is the byte now held (R155, D16; log 8). -/
def execSetBankSipo (k d : Nat) (value : Byte) (s : State) : Host.Outcome State Fault Refusal :=
  s.withDevice k d fun i => State.succeed { s with sb := s.sb.write i value } value.toNat

/-- INVERT_BANK_SIPO: the success value is the byte after inversion (R156, D16; log 8). -/
def execInvertBankSipo (k d : Nat) (s : State) : Host.Outcome State Fault Refusal :=
  s.withDevice k d fun i => State.succeed { s with sb := s.sb.write i (~~~(s.sb.read i)) } (~~~(s.sb.read i)).toNat

/-- READ_BANK_SIPO (R157). -/
def execReadBankSipo (k d : Nat) (s : State) : Host.Outcome State Fault Refusal :=
  s.withDevice k d fun i => s.succeed (s.sb.read i).toNat

/-- SET_ALL_ARRAY_PINS: every reserved byte, allocated or not (R158). -/
def execSetAllArrayPins (level : Level) (s : State) : Host.Outcome State Fault Refusal :=
  (s.mapAllBytes (fun _ => fill level)).done

/-- INVERT_ALL_ARRAY_PINS: every reserved byte, allocated or not (R159). -/
def execInvertAllArrayPins (s : State) : Host.Outcome State Fault Refusal := (s.mapAllBytes (fun v => ~~~v)).done

end Sys2Proof.Machine
end

