-- ==== Sys2Proof/Machine/PinAddressing.lean ====
section
/-! DEFINITION. The single-pin commands and the queries (spec/41_pin_addressing.md R130 to R138). -/
namespace Sys2Proof.Machine

/-- SET_ARRAY_PIN (R130). -/
def execSetArrayPin (p : Nat) (level : Level) (s : State) : Host.Outcome State Fault Refusal := s.setArrayPin p level

/-- INVERT_ARRAY_PIN (R131). -/
def execInvertArrayPin (p : Nat) (s : State) : Host.Outcome State Fault Refusal := s.invertArrayPin p

/-- READ_ARRAY_PIN (R132). -/
def execReadArrayPin (p : Nat) (s : State) : Host.Outcome State Fault Refusal := s.readArrayPin p

/-- SET_BANK_PIN: the bank first, then SET_ARRAY_PIN at the translated pin, its failure included (R133, R206). -/
def execSetBankPin (k r : Nat) (level : Level) (s : State) : Host.Outcome State Fault Refusal :=
  s.withBank k fun b => s.setArrayPin (b.absPin r) level

/-- INVERT_BANK_PIN (R134). -/
def execInvertBankPin (k r : Nat) (s : State) : Host.Outcome State Fault Refusal :=
  s.withBank k fun b => s.invertArrayPin (b.absPin r)

/-- READ_BANK_PIN (R135). -/
def execReadBankPin (k r : Nat) (s : State) : Host.Outcome State Fault Refusal :=
  s.withBank k fun b => s.readArrayPin (b.absPin r)

/-- GET_BANK_FROM_PIN (R136). -/
def execGetBankFromPin (p : Nat) (s : State) : Host.Outcome State Fault Refusal :=
  match scanBanks p s.banks 0 with
  | some k => s.succeed k
  | none => s.fail .ePin

/-- NUM_PINS_IN_BANK (R137). -/
def execNumPinsInBank (k : Nat) (s : State) : Host.Outcome State Fault Refusal :=
  s.withBank k fun b => s.succeed (b.count * 8)

end Sys2Proof.Machine
end

