-- ==== Sys2Proof/Machine/TimerUtility.lean ====
section
/-! DEFINITION. The Timer Utility (spec/44_timer_utility.md R190 to R194). -/
namespace Sys2Proof.Machine

/-- START_TIMER: one clock sample when the slot is valid, none otherwise (R190, D28). -/
def execStartTimer (slot : Nat) (s : State) : Host.Outcome State Fault Refusal :=
  if s.cfg.nTmr ≤ slot then s.done
  else s.withSample fun now t => (t.setTimer slot (.counting now)).done

/-- STOP_TIMER (R191). -/
def execStopTimer (slot : Nat) (s : State) : Host.Outcome State Fault Refusal :=
  if s.cfg.nTmr ≤ slot then s.done else (s.setTimer slot .idle).done

/-- IS_ELAPSED: one clock sample when the slot is valid and counting, none otherwise; a true answer idles the slot (R192,
D28). -/
def execIsElapsed (slot duration : Nat) (s : State) : Host.Outcome State Fault Refusal :=
  if s.cfg.nTmr ≤ slot then s.succeed 0
  else
    match s.timer slot with
    | .idle => s.succeed 0
    | .counting start =>
      s.withSample fun now t =>
        if duration ≤ now.toNat - start.toNat then (t.setTimer slot .idle).succeed 1 else t.succeed 0

end Sys2Proof.Machine
end

