-- ==== Sys2Proof/Machine/Transfer.lean ====
section
/-! DEFINITION. The Transfer Engine: bit and byte order, latch framing, and the three transfer commands
(spec/43_transfer_engine.md R170 to R181). -/
namespace Sys2Proof.Machine

/-- `0 .. n-1` under LSB_FIRST, `n-1 downto 0` under MSB_FIRST: one operand chooses the order of devices and of bits
(R173, R174, R250). -/
def BitOrder.walk (order : BitOrder) (n : Nat) : List Nat :=
  match order with
  | .lsbFirst => List.range n
  | .msbFirst => (List.range n).reverse

/-- `EMIT_BIT`: the data level, then the clock high and low (R175). -/
def emitBit (b : Bank) (v : Level) : List LineEvent := [.wr b.data v, .wr b.clock true, .wr b.clock false]

/-- `SHIFT_BYTE`: the eight bits in order (R174). -/
def shiftByte (b : Bank) (v : Byte) (order : BitOrder) : List LineEvent :=
  (BitOrder.walk order 8).flatMap fun j => emitBit b (v.getLsbD j)

/-- `FRAME`: latch low, the bank's bytes in order, latch high (R172, R173). -/
def frame (m : Memory) (b : Bank) (order : BitOrder) : List LineEvent :=
  .wr b.latch false ::
    ((BitOrder.walk order b.count).flatMap fun d => shiftByte b (m.read (b.deviceByte d)) order) ++ [.wr b.latch true]

/-- The frames of banks `first..last`, `first` first (R170, R172, D14; log 7); a malformed range transfers nothing
(R171). -/
def State.transfer (s : State) (first last : Nat) (order : BitOrder) : Host.Outcome State Fault Refusal :=
  s.withRange first last fun bs => (s.emit (bs.flatMap fun b => frame s.sb b order)).done

/-- XFER_BANKS (R170). -/
def execXferBanks (first last : Nat) (order : BitOrder) (s : State) : Host.Outcome State Fault Refusal :=
  s.transfer first last order

/-- XFER_BANK: the range `k..k` (R176). -/
def execXferBank (k : Nat) (order : BitOrder) (s : State) : Host.Outcome State Fault Refusal := s.transfer k k order

/-- XFER_ARRAY: every allocated bank, nothing when there is none (R177). -/
def execXferArray (order : BitOrder) (s : State) : Host.Outcome State Fault Refusal :=
  if s.banksUsed = 0 then s.done else s.transfer 0 (s.banksUsed - 1) order

end Sys2Proof.Machine
end

