-- ==== Sys2Proof/Machine/Dispatch.lean ====
section
/-! DEFINITION. exec: one arm per command, each one direct call of its meaning. -/
namespace Sys2Proof.Machine

def exec (i : Instr) (s : State) : Host.Outcome State Fault Refusal :=
  match i with
  -- Bank Allocator (spec/40_bank_allocator.md)
  | .createBank data clock latch count => Sys2Proof.Machine.execCreateBank data clock latch count s
  -- single pins and queries (spec/41_pin_addressing.md)
  | .setArrayPin p level => Sys2Proof.Machine.execSetArrayPin p level s
  | .invertArrayPin p => Sys2Proof.Machine.execInvertArrayPin p s
  | .readArrayPin p => Sys2Proof.Machine.execReadArrayPin p s
  | .getBankFromPin p => Sys2Proof.Machine.execGetBankFromPin p s
  | .numPinsInBank k => Sys2Proof.Machine.execNumPinsInBank k s
  | .setBankPin k r level => Sys2Proof.Machine.execSetBankPin k r level s
  | .invertBankPin k r => Sys2Proof.Machine.execInvertBankPin k r s
  | .readBankPin k r => Sys2Proof.Machine.execReadBankPin k r s
  -- whole banks, devices and the array (spec/42_bank_device_array.md)
  | .setBank k level => Sys2Proof.Machine.execSetBank k level s
  | .invertBank k => Sys2Proof.Machine.execInvertBank k s
  | .setBanks first last level => Sys2Proof.Machine.execSetBanks first last level s
  | .invertBanks first last => Sys2Proof.Machine.execInvertBanks first last s
  | .setBankSipo k d value => Sys2Proof.Machine.execSetBankSipo k d value s
  | .invertBankSipo k d => Sys2Proof.Machine.execInvertBankSipo k d s
  | .readBankSipo k d => Sys2Proof.Machine.execReadBankSipo k d s
  | .setAllArrayPins level => Sys2Proof.Machine.execSetAllArrayPins level s
  | .invertAllArrayPins => Sys2Proof.Machine.execInvertAllArrayPins s
  -- Transfer Engine (spec/43_transfer_engine.md)
  | .xferBanks first last order => Sys2Proof.Machine.execXferBanks first last order s
  | .xferBank k order => Sys2Proof.Machine.execXferBank k order s
  | .xferArray order => Sys2Proof.Machine.execXferArray order s
  -- Timer Utility (spec/44_timer_utility.md)
  | .startTimer slot => Sys2Proof.Machine.execStartTimer slot s
  | .stopTimer slot => Sys2Proof.Machine.execStopTimer slot s
  | .isElapsed slot duration => Sys2Proof.Machine.execIsElapsed slot duration s

end Sys2Proof.Machine
end

