-- ==== Sys2Proof/Machine/Step.lean ====
section
/-! DEFINITION. One step: the controller takes the host's next command word and runs it to completion (spec/00_scope.md R9,
spec/10_state.md R36). -/
namespace Sys2Proof.Machine

/-- One command. An illegal word fails with `E_ILLEGAL` before any operand is looked at, and changes nothing else (R96,
R206(e)); with no command issued there is no step. -/
def step (s : State) : Host.Outcome State Fault Refusal :=
  match s.fetch with
  | none => .refused .noCommand
  | some (w, t) =>
    match decode w with
    | .ok i => exec i t
    | .error _ => t.fail .eIllegal

/-- The state in which the host has issued the table word as its next command; nothing else changes (log 3). -/
def State.withFetchWord (s : State) (nbits w : Nat) : State := s.issue (commandWordOfTable nbits w)

end Sys2Proof.Machine
end

