-- ==== Sys2Proof/Machine/Assembler.lean ====
section
/-! DEFINITION. The textual form of a command (spec/30_encoding.md R101) and its other spellings (R102): one command a
line, the mnemonic in capitals and its operands comma-separated, or the source's own call `name(arg, ...)`. -/
namespace Sys2Proof.Machine

/-- An operand as written. -/
inductive Operand where
  | num (n : Nat)
  | low
  | high
  | lsbFirst
  | msbFirst
  deriving DecidableEq, Repr

/-- Why a line is no command. -/
inductive AsmError where
  | unknownMnemonic
  | badForm
  | badOperand
  | wrongOperands
  | operandTooWide
  deriving DecidableEq, Repr

/-- The value of a decimal or lower- or upper-case hexadecimal digit. -/
def digitValue (c : Char) : Option Nat :=
  if '0' ≤ c ∧ c ≤ '9' then some (c.toNat - '0'.toNat)
  else if 'a' ≤ c ∧ c ≤ 'f' then some (c.toNat - 'a'.toNat + 10)
  else if 'A' ≤ c ∧ c ≤ 'F' then some (c.toNat - 'A'.toNat + 10)
  else none

/-- The digits read in the base, after the value read so far. -/
def readDigits (base : Nat) : List Char → Nat → Option Nat
  | [], n => some n
  | c :: rest, n =>
    match digitValue c with
    | none => none
    | some v => if v < base then readDigits base rest (n * base + v) else none

/-- A natural in decimal or `0x` hexadecimal (R101). -/
def readNumeral : List Char → Option Nat
  | [] => none
  | '0' :: 'x' :: c :: rest => readDigits 16 (c :: rest) 0
  | c :: rest => readDigits 10 (c :: rest) 0

/-- One operand: `LOW`, `HIGH`, `LSB_FIRST`, `MSB_FIRST` or a natural (R101). -/
def readOperand (text : List Char) : Option Operand :=
  if text = "LOW".toList then some .low
  else if text = "HIGH".toList then some .high
  else if text = "LSB_FIRST".toList then some .lsbFirst
  else if text = "MSB_FIRST".toList then some .msbFirst
  else (readNumeral text).map .num

/-- Blank space between the parts of a line. -/
def isBlank (c : Char) : Bool := c = ' ' || c = '\t'

/-- The text without blanks at either end. -/
def trim (text : List Char) : List Char := ((text.dropWhile isBlank).reverse.dropWhile isBlank).reverse

/-- The text cut at its commas; the first argument is the part read so far, backwards. -/
def splitCommas : List Char → List Char → List (List Char)
  | part, [] => [part.reverse]
  | part, c :: rest => if c = ',' then part.reverse :: splitCommas [] rest else splitCommas (c :: part) rest

/-- Every operand, or none if one of them is not readable. -/
def readOperands : List (List Char) → Option (List Operand)
  | [] => some []
  | text :: rest =>
    match readOperand (trim text), readOperands rest with
    | some o, some os => some (o :: os)
    | _, _ => none

/-- A `level` operand: `0`, `1`, `LOW` or `HIGH` (R101); DESIGN CHOICE: the numeral in any spelling (log 16). -/
def asLevel : Operand → Option Level
  | .num n => if n = 0 then some false else if n = 1 then some true else none
  | .low => some false
  | .high => some true
  | .lsbFirst => none
  | .msbFirst => none

/-- An `order` operand (R101); DESIGN CHOICE: never a number (log 16). -/
def asOrder : Operand → Option BitOrder
  | .lsbFirst => some .lsbFirst
  | .msbFirst => some .msbFirst
  | .num _ => none
  | .low => none
  | .high => none

/-- The names of a command: its mnemonic, and the source's own call name where the source gives one (R91, R101). -/
def named (mnemonic sourceName : String) (text : List Char) : Bool := text = mnemonic.toList || text = sourceName.toList

/-- The mnemonics (R91), the source's call names (R101) and the aliases of R102, each with its operands in the order of
R91. `none` where the name is unknown, `some none` where the operands do not fit it. -/
def commandOf (name : List Char) (args : List Operand) : Option (Option Instr) :=
  if named "CREATE_BANK" "create_bank" name then
    some (match args with | [.num a, .num b, .num c, .num n] => some (.createBank a b c n) | _ => none)
  else if named "SET_ARRAY_PIN" "set_array_pin" name then
    some (match args with | [.num p, v] => (asLevel v).map (.setArrayPin p) | _ => none)
  else if named "INVERT_ARRAY_PIN" "invert_array_pin" name then
    some (match args with | [.num p] => some (.invertArrayPin p) | _ => none)
  else if named "READ_ARRAY_PIN" "read_array_pin" name then
    some (match args with | [.num p] => some (.readArrayPin p) | _ => none)
  else if named "SET_BANK_PIN" "set_bank_pin" name then
    some (match args with | [.num k, .num r, v] => (asLevel v).map (.setBankPin k r) | _ => none)
  else if named "INVERT_BANK_PIN" "invert_bank_pin" name then
    some (match args with | [.num k, .num r] => some (.invertBankPin k r) | _ => none)
  else if named "READ_BANK_PIN" "read_bank_pin" name then
    some (match args with | [.num k, .num r] => some (.readBankPin k r) | _ => none)
  else if named "GET_BANK_FROM_PIN" "get_bank_from_pin" name then
    some (match args with | [.num p] => some (.getBankFromPin p) | _ => none)
  else if named "NUM_PINS_IN_BANK" "num_pins_in_bank" name then
    some (match args with | [.num k] => some (.numPinsInBank k) | _ => none)
  else if named "SET_BANK" "set_bank" name then
    some (match args with | [.num k, v] => (asLevel v).map (.setBank k) | _ => none)
  else if named "INVERT_BANK" "invert_bank" name then
    some (match args with | [.num k] => some (.invertBank k) | _ => none)
  else if name = "SET_BANKS".toList then
    some (match args with | [.num i, .num j, v] => (asLevel v).map (.setBanks i j) | _ => none)
  else if name = "INVERT_BANKS".toList then
    some (match args with | [.num i, .num j] => some (.invertBanks i j) | _ => none)
  else if named "SET_BANK_SIPO" "set_bank_SIPO" name then
    some (match args with | [.num k, .num d, .num v] => if v < 2 ^ 8 then some (.setBankSipo k d (BitVec.ofNat 8 v)) else none | _ => none)
  else if named "INVERT_BANK_SIPO" "invert_bank_SIPO" name then
    some (match args with | [.num k, .num d] => some (.invertBankSipo k d) | _ => none)
  else if named "READ_BANK_SIPO" "read_bank_SIPO" name then
    some (match args with | [.num k, .num d] => some (.readBankSipo k d) | _ => none)
  else if named "SET_ALL_ARRAY_PINS" "set_all_array_pins" name then
    some (match args with | [v] => (asLevel v).map .setAllArrayPins | _ => none)
  else if named "INVERT_ALL_ARRAY_PINS" "invert_all_array_pins" name then
    some (match args with | [] => some .invertAllArrayPins | _ => none)
  else if named "XFER_BANKS" "transfer" name || name = "TRANSFER".toList then
    some (match args with | [.num i, .num j, o] => (asOrder o).map (.xferBanks i j) | _ => none)
  else if name = "XFER_BANK".toList then
    some (match args with | [.num k, o] => (asOrder o).map (.xferBank k) | _ => none)
  else if named "XFER_ARRAY" "XFER_ALL_BANKS" name then
    some (match args with | [o] => (asOrder o).map .xferArray | _ => none)
  else if named "START_TIMER" "start_timer" name then
    some (match args with | [.num s] => some (.startTimer s) | _ => none)
  else if named "STOP_TIMER" "stop_timer" name then
    some (match args with | [.num s] => some (.stopTimer s) | _ => none)
  else if named "IS_ELAPSED" "is_elapsed" name then
    some (match args with | [.num s, .num t] => some (.isElapsed s t) | _ => none)
  else none

/-- Whether a name is one of the source's own, which R101 writes in lower case and only as a call. -/
def isSourceName (name : List Char) : Bool :=
  match name with
  | [] => false
  | c :: _ => decide ('a' ≤ c ∧ c ≤ 'z')

/-- The operand text of a line: what follows the name, without the parentheses of the call form `name(arg, ...)` (R101).
DESIGN CHOICE (log 16; R101 is silent on a line in neither of its forms): there is none where an opening parenthesis has
no closing one, where anything follows the closing one, and where a source name (`called`) has no parentheses; a
mnemonic may have them or not. -/
def operandText (called : Bool) (text : List Char) : Option (List Char) :=
  match trim text with
  | '(' :: rest => if rest.dropWhile (· ≠ ')') = [')'] then some (trim (rest.takeWhile (· ≠ ')'))) else none
  | other => if called then none else some other

/-- The end of a name: a blank or the call form's parenthesis. -/
def endsName (c : Char) : Bool := isBlank c || c = '('

/-- One line: `ok none` for a blank or comment line, `ok (some i)` for a command whose operands fit their widths (R8),
an error otherwise (which of several errors is reported is the model's choice, log 16). `;` starts a comment (R101). -/
def assembleLine (line : String) : Except AsmError (Option Instr) :=
  let text := trim (line.toList.takeWhile (· ≠ ';'))
  if text = [] then .ok none
  else
    let name := text.takeWhile (fun c => !endsName c)
    match operandText (isSourceName name) (text.dropWhile (fun c => !endsName c)) with
    | none => .error .badForm
    | some rest =>
      match readOperands (if rest = [] then [] else splitCommas [] rest) with
      | none => .error .badOperand
      | some args =>
        match commandOf name args with
        | none => .error .unknownMnemonic
        | some none => .error .wrongOperands
        | some (some i) => if i.wf then .ok (some i) else .error .operandTooWide

end Sys2Proof.Machine
end

