-- ==== Sys2Proof/Machine/Construction.lean ====
section
/-! DEFINITION. Construction, the reset of this hardware (spec/70_reset_and_hazards.md R230, spec/60_exceptions.md R205). -/
namespace Sys2Proof.Machine

/-- Why construction yields no instance. -/
inductive ConstructFailure where
  /-- the parameters are outside `1 <= N_DEV <= 255`, `0 <= N_TMR <= 255`: refused (R230, U10) -/
  | badParameters
  /-- `E_ALLOC`: the backing storage cannot be obtained (R205) -/
  | eAlloc
  deriving DecidableEq, Repr

/-- Construction with `N_DEV`, `N_TMR` and the environment input `ALLOC_OK`: an instance in the state of R51, or a failure
and no instance. It emits no line event and samples no clock (R230). -/
def construct (nDev nTmr : Nat) (allocOk : Bool) : Except ConstructFailure State :=
  if Config.wf ⟨nDev, nTmr⟩ then
    if allocOk then .ok (State.fresh ⟨nDev, nTmr⟩) else .error .eAlloc
  else .error .badParameters

end Sys2Proof.Machine
end

