-- ==== Sys2Proof/Machine/Devices.lean ====
section
/-! DEFINITION. The informative reference model of what the attached devices show (spec/43_transfer_engine.md R182). The
devices are outside the controller (spec/00_scope.md R5(d)): nothing in `State` or `step` depends on this file. -/
namespace Sys2Proof.Machine

/-- The chain of one bank: the stages of its one shift register, stage 0 nearest the controller; the output pins the
latch last committed; and the levels of its clock and data lines and of its latch line. -/
structure Chain where
  stages : List Level
  outputs : List Level
  data : Level
  clock : Level
  latch : Level
  deriving DecidableEq, Repr

/-- One clock pulse: every stage's bit moves one stage further, the data level enters stage 0, the last bit leaves (R182). -/
def shiftIn (v : Level) (stages : List Level) : List Level := (v :: stages).take stages.length

/-- What the chain on lines `b.data`, `b.clock`, `b.latch` does at one line event. A clock pulse counts when the clock goes
from high to low (ESR's remark in R175; the edge makes no difference there, C3); the latch copies the stages to the
outputs when it goes from low to high (R182). Stages read in an event are those before it.
DESIGN CHOICE (log 18): where the data line is also the clock line, which U13 puts outside the block, stage 0 loads the
level just written (0, at the falling edge), not the level before; equal lines are otherwise taken literally too. -/
def Chain.see (b : Bank) (c : Chain) (e : LineEvent) : Chain :=
  match e with
  | .cfg _ => c
  | .wr l v =>
    { stages := if l = b.clock ∧ c.clock = true ∧ v = false then shiftIn (if l = b.data then v else c.data) c.stages else c.stages
      outputs := if l = b.latch ∧ c.latch = false ∧ v = true then c.stages else c.outputs
      data := if l = b.data then v else c.data
      clock := if l = b.clock then v else c.clock
      latch := if l = b.latch then v else c.latch }

/-- The chain after a list of events (R182). -/
def Chain.watch (b : Bank) (c : Chain) (events : List LineEvent) : Chain := events.foldl (Chain.see b) c

end Sys2Proof.Machine
end

