-- ==== Sys2Proof/Safety.lean ====
section
/-! DEFINITION. What a sound state of the controller is: the invariants of spec/10_state.md R26, R30, R32, R33 and of the
clock law of spec/44_timer_utility.md R193, in the terms the statements use; and what a safe step is. -/
namespace Sys2Proof.Machine

/-- The descriptors tile the pins from device `dev` on: ranges disjoint, contiguous in allocation order, each of
`count * 8` pins, `low` a multiple of 8 (R26). -/
def banksTile : Nat → List Bank → Prop
  | _, [] => True
  | dev, b :: rest => 1 ≤ b.count ∧ b.low = 8 * dev ∧ b.high + 1 = b.low + 8 * b.count ∧ banksTile (dev + b.count) rest

/-- The devices of all banks (R30). -/
def totalDevices (bs : List Bank) : Nat := (bs.map Bank.count).sum

/-- The three line identifiers fit `W_LINE` bits (R8, R25). -/
def Bank.linesOk (b : Bank) : Prop := b.data < Config.lineBound ∧ b.clock < Config.lineBound ∧ b.latch < Config.lineBound

/-- The three line identifiers of the bank are distinct: a premise where line levels are spoken of (R247, D26). -/
def Bank.linesDistinct (b : Bank) : Prop := b.data ≠ b.clock ∧ b.data ≠ b.latch ∧ b.clock ≠ b.latch

/-- A value a result can carry: below `2^16` (R97). -/
def Result.wf : Result → Prop
  | .okVal v => v < 2 ^ 16
  | .okUnit => True
  | .err _ => True

/-- The invariants "true after construction and preserved by every command" (R26, R30), with the canonical forms of the
model's tables and the laws of its lines, results and clock. -/
structure State.Inv (s : State) : Prop where
  /-- the parameters are legal (R8) -/
  cfgOk : s.cfg.wf = true
  /-- the status bytes are in canonical form and only `SB[0 .. N_DEV-1]` exists (R21) -/
  sbOk : s.sb.wf
  sbBound : ∀ entry ∈ s.sb, entry.1 < s.cfg.nDev
  /-- the bank ranges tile the active pins (R26) -/
  tile : banksTile 0 s.banks
  /-- the counters (R30) -/
  devTotal : s.devUsed = totalDevices s.banks
  pinsTotal : s.pinsActive = 8 * s.devUsed
  devBound : s.devUsed ≤ s.cfg.nDev
  /-- line identifiers fit their width (R8) -/
  bankLines : ∀ b ∈ s.banks, b.linesOk
  traceLines : ∀ e ∈ s.trace, e.line < Config.lineBound
  /-- the timer slots are in canonical form, only `TMR[0 .. N_TMR-1]` exists, and no slot counts from a later instant than
  the newest sample (R31, R77(g), R193) -/
  tmrOk : Table.wf Timer.idle s.tmr
  tmrBound : ∀ entry ∈ s.tmr, entry.1 < s.cfg.nTmr
  tmrStarted : ∀ slot start, s.timer slot = .counting start → start ≤ s.lastSample
  /-- the line image is what the trace, replayed from untouched lines, gives (R33) -/
  lineOk : Table.wf LineImage.untouched s.line
  lineReplay : s.line = s.trace.foldl applyEvent []
  /-- the result's value fits (R97) -/
  resultOk : s.result.wf

/-- No presented clock sample is about to go back: the premise of R193 on the environment, for the next sample. -/
def State.ClockOk (s : State) : Prop := ∀ now ∈ s.clock.head?, s.lastSample ≤ now

/-- A step does not stop with a fault: no command reads or writes outside the state (U2). -/
def SafeStep (s : State) : Prop := ∀ f, step s ≠ .fault f

end Sys2Proof.Machine

namespace Sys2Proof

/-! ### Kinds of commands, by the rule that names them -/

/-- The command allocates a bank. -/
def Instr.isCreate : Instr → Bool
  | .createBank _ _ _ _ => true
  | _ => false

/-- The command is a transfer. -/
def Instr.isTransfer : Instr → Bool
  | .xferBanks _ _ _ => true
  | .xferBank _ _ => true
  | .xferArray _ => true
  | _ => false

/-- The command is one that may write status bytes (R24). -/
def Instr.writesStore : Instr → Bool
  | .setArrayPin _ _ | .invertArrayPin _ | .setBankPin _ _ _ | .invertBankPin _ _ | .setBankSipo _ _ _ | .invertBankSipo _ _
  | .setBank _ _ | .invertBank _ | .setBanks _ _ _ | .invertBanks _ _ | .setAllArrayPins _ | .invertAllArrayPins => true
  | _ => false

/-- The command is of the Timer Utility. -/
def Instr.isTimer : Instr → Bool
  | .startTimer _ => true
  | .stopTimer _ => true
  | .isElapsed _ _ => true
  | _ => false

/-- The command is one of the INVERT commands. -/
def Instr.isInvert : Instr → Bool
  | .invertArrayPin _ | .invertBankPin _ _ | .invertBank _ | .invertBanks _ _ | .invertBankSipo _ _ | .invertAllArrayPins => true
  | _ => false

/-- The command is one of those R69 calls idempotent: SET, READ (with the two queries), STOP_TIMER. -/
def Instr.isIdempotent : Instr → Bool
  | .setArrayPin _ _ | .setBankPin _ _ _ | .setBank _ _ | .setBanks _ _ _ | .setBankSipo _ _ _ | .setAllArrayPins _
  | .readArrayPin _ | .readBankPin _ _ | .readBankSipo _ _ | .getBankFromPin _ | .numPinsInBank _ | .stopTimer _ => true
  | _ => false

end Sys2Proof
end

