-- ==== Sys2Proof/Certificates/Slice0/Obligations.lean ====
section
/-! DEFINITION. The statements about the model, from the numbered rules of spec/. Frames are said by an equation
`t = { s with ... }`, which leaves every field it does not name as it was in `s`. -/

namespace Sys2Proof.Statements

open Sys2Proof Sys2Proof.Machine

/-! ### Terms of the statements -/

/-- A row of spec/opcode_table.json: the bits every word of the command has, and which bits those are. -/
structure OpcodeRow where
  pattern : CommandWord
  mask : CommandWord

/-- The columns match and mask of spec/opcode_table.json, row by row. -/
def opcodeRows : List OpcodeRow :=
  [⟨0x0100000000000000#64, 0xFF000000FFFFFF00#64⟩, ⟨0x1000000000000000#64, 0xFFFFFFFEFFFF0000#64⟩,
   ⟨0x1100000000000000#64, 0xFFFFFFFFFFFF0000#64⟩, ⟨0x1200000000000000#64, 0xFFFFFFFFFFFF0000#64⟩,
   ⟨0x1300000000000000#64, 0xFFFFFFFFFFFF0000#64⟩, ⟨0x1400000000000000#64, 0xFF00FFFFFFFFFFFF#64⟩,
   ⟨0x2000000000000000#64, 0xFF00FFFEFFFF0000#64⟩, ⟨0x2100000000000000#64, 0xFF00FFFFFFFF0000#64⟩,
   ⟨0x2200000000000000#64, 0xFF00FFFFFFFF0000#64⟩, ⟨0x3000000000000000#64, 0xFF00FFFEFFFFFFFF#64⟩,
   ⟨0x3100000000000000#64, 0xFF00FFFFFFFFFFFF#64⟩, ⟨0x3200000000000000#64, 0xFF0000FEFFFFFFFF#64⟩] ++
  [⟨0x3300000000000000#64, 0xFF0000FFFFFFFFFF#64⟩, ⟨0x4000000000000000#64, 0xFF000000FFFFFFFF#64⟩,
   ⟨0x4100000000000000#64, 0xFF0000FFFFFFFFFF#64⟩, ⟨0x4200000000000000#64, 0xFF0000FFFFFFFFFF#64⟩,
   ⟨0x5000000000000000#64, 0xFFFFFFFEFFFFFFFF#64⟩, ⟨0x5100000000000000#64, 0xFFFFFFFFFFFFFFFF#64⟩,
   ⟨0x6000000000000000#64, 0xFF0000FEFFFFFFFF#64⟩, ⟨0x6100000000000000#64, 0xFF00FFFEFFFFFFFF#64⟩,
   ⟨0x6200000000000000#64, 0xFFFFFFFEFFFFFFFF#64⟩, ⟨0x7000000000000000#64, 0xFF00FFFFFFFFFFFF#64⟩,
   ⟨0x7100000000000000#64, 0xFF00FFFFFFFFFFFF#64⟩, ⟨0x7200000000000000#64, 0xFF00FFFF00000000#64⟩]

/-- From `s` to `t` the command wrote `level` to pin `p` and returned `v`: every other pin, so every other bit of every
status byte, and every other field is as before. -/
def PinWritten (s t : State) (p : Nat) (level : Level) (v : Nat) : Prop :=
  (∀ q, t.pin q = if q = p then level else s.pin q) ∧ t = { s with sb := t.sb, result := .okVal v }

/-- From `s` to `t` the command put the pins `lo..hi` through `f` and returned `Ok()`: every other pin and every other
field is as before. -/
def PinsMapped (s t : State) (lo hi : Nat) (f : Level → Level) : Prop :=
  (∀ q, t.pin q = if lo ≤ q ∧ q ≤ hi then f (s.pin q) else s.pin q) ∧ t = { s with sb := t.sb, result := .okUnit }

/-- From `s` to `t` the command wrote `byte` to status byte `i` and returned it: every other byte and every other field
is as before. -/
def ByteWritten (s t : State) (i : Nat) (byte : Byte) : Prop :=
  (∀ j, t.sb.read j = if j = i then byte else s.sb.read j) ∧ t = { s with sb := t.sb, result := .okVal byte.toNat }

/-- From `s` to `t` the command put every status byte `0 .. N_DEV-1` through `f` and returned `Ok()`; nothing else
changed. -/
def AllBytesMapped (s t : State) (f : Byte → Byte) : Prop :=
  (∀ i, i < s.cfg.nDev → t.sb.read i = f (s.sb.read i)) ∧ (∀ i, s.cfg.nDev ≤ i → t.sb.read i = s.sb.read i) ∧
  t = { s with sb := t.sb, result := .okUnit }

/-- From `s` to `t` the command appended `events` to the trace and returned `Ok()`; of the rest only the line image, which
follows the events, changed. -/
def Emitted (s t : State) (events : List LineEvent) : Prop :=
  t = { s with line := t.line, trace := s.trace ++ events, result := .okUnit } ∧ t.line = events.foldl applyEvent s.line

/-- The pins of a bank in the order they are shifted out: from `low` up under LSB_FIRST, from `high` down under MSB_FIRST
(the closed form of R174). -/
def pinOrder (order : BitOrder) (b : Bank) : List Nat :=
  match order with
  | .lsbFirst => (List.range (8 * b.count)).map (fun t => b.low + t)
  | .msbFirst => (List.range (8 * b.count)).map (fun t => b.high - t)

/-- A frame as the list of its pins: latch low, three events a pin, latch high (R174, R175, R181). -/
def frameOfPins (s : State) (order : BitOrder) (b : Bank) : List LineEvent :=
  [.wr b.latch false] ++ (pinOrder order b).flatMap (fun p => [.wr b.data (s.pin p), .wr b.clock true, .wr b.clock false]) ++
  [.wr b.latch true]

/-- The levels written to a line by a list of events. -/
def levelsWritten (l : Nat) (events : List LineEvent) : List Level :=
  events.filterMap fun e => match e with | .cfg _ => none | .wr l' v => if l' = l then some v else none

/-- The level of a line after the events, from the lines of `s`. -/
def levelAfter (s : State) (events : List LineEvent) (l : Nat) : LineLevel :=
  (Table.get LineImage.untouched (events.foldl applyEvent s.line) l).level

/-- Commands one after another, each on the state the one before it left. -/
def runCommands : List Instr → State → Host.Outcome State Fault Refusal
  | [], s => .next s
  | i :: rest, s =>
    match exec i s with
    | .next t => runCommands rest t
    | .fault f => .fault f
    | .refused r => .refused r

end Sys2Proof.Statements

open Sys2Proof Sys2Proof.Machine Sys2Proof.Statements

/-! ### Construction and reset -/

/-- R45: every status byte is zero after construction, whatever the parameters. -/
def Obligations.ConstructionClearsStatusBytes : Prop :=
  ∀ nDev nTmr, 1 ≤ nDev → nDev ≤ 255 → nTmr ≤ 255 →
    ∃ s, construct nDev nTmr true = .ok s ∧ ∀ i, i < nDev → s.sb.read i = 0x00#8

/-- R46 to R51: what else construction leaves. `RESULT` is not spoken of (R50). Idle timers are the spec's decision D6 (log
17). The reset instance is one of these; its parameters are the model's choice (log 1). -/
def Obligations.ConstructionLeavesResetState : Prop :=
  (∀ nDev nTmr, 1 ≤ nDev → nDev ≤ 255 → nTmr ≤ 255 →
    ∃ s, construct nDev nTmr true = .ok s ∧ s.views = ⟨nDev, nTmr, 0, 0, 0⟩ ∧ s.banks = [] ∧ (∀ slot, s.timer slot = .idle) ∧
      (∀ l, s.lineImage l = ⟨.unconfigured, .unknown⟩) ∧ s.trace = []) ∧
  construct Config.atReset.nDev Config.atReset.nTmr true = .ok State.reset

/-- R205, R230: construction without storage yields `E_ALLOC` and no instance, and other parameters are refused (the spec's
decisions D12 and D2, log 17 and log 11). -/
def Obligations.ConstructionFailsWithoutInstance : Prop :=
  (∀ nDev nTmr, 1 ≤ nDev → nDev ≤ 255 → nTmr ≤ 255 → construct nDev nTmr false = .error .eAlloc) ∧
  (∀ nDev nTmr allocOk, (nDev = 0 ∨ 255 < nDev ∨ 255 < nTmr) → construct nDev nTmr allocOk = .error .badParameters)

/-- R26, R30, R32: the invariants hold after construction. -/
def Obligations.ResetMeetsInvariant : Prop := State.reset.Inv ∧ ∀ c : Config, c.wf = true → (State.fresh c).Inv

/-! ### Every step -/

/-- R26, R30: every command preserves the invariants. -/
def Obligations.StepKeepsInvariant : Prop := ∀ s t, s.Inv → step s = .next t → t.Inv

/-- U2, R71: no command accesses a status byte that does not exist. -/
def Obligations.StepNeverFaults : Prop := ∀ s, s.Inv → SafeStep s

/-- R255: with a command issued and a clock that keeps its law, the step completes. -/
def Obligations.StepCompletes : Prop := ∀ s, s.Inv → s.ClockOk → s.commands ≠ [] → ∃ t, step s = .next t

/-- R9, R36: a step runs the command that the host's next word decodes to, on the state without that word (the spec's
decision D5, log 3). -/
def Obligations.StepRunsDecodedCommand : Prop :=
  ∀ s w later i, s.commands = w :: later → decode w = .ok i → step s = exec i { s with commands := later }

/-- R96: an illegal word is refused: `RESULT <- Err(E_ILLEGAL)`, nothing else changes (the spec's decision D10, log 16). -/
def Obligations.StepRefusesIllegalWord : Prop :=
  ∀ s w later e, s.commands = w :: later → decode w = .error e → step s = .next { s with commands := later, result := .err .eIllegal }

/-- The model's choice (log 3): with no command issued there is no step. -/
def Obligations.StepNeedsCommand : Prop := ∀ s : State, s.commands = [] → step s = .refused .noCommand

/-! ### Command words -/

/-- R93 to R95: decoding an encoded well-formed command gives it back, every operand at every value (the
spec's encoding, D8 and D9, log 16). -/
def Obligations.DecodeOfEncode : Prop := ∀ i : Instr, i.wf = true → decode (encode i) = .ok i

/-- R93 to R96: a legal word is the encoding of the command it decodes to, and its operands fit their widths. -/
def Obligations.EncodeOfDecode : Prop := ∀ w i, decode w = .ok i → encode i = w ∧ i.wf = true

/-- R94, R96: the decoder accepts exactly the words that match a row of the opcode table (log 16). -/
def Obligations.DecodeAcceptsOpcodeTable : Prop :=
  ∀ w, (∃ i, decode w = .ok i) ↔ ∃ row ∈ opcodeRows, w &&& row.mask = row.pattern

/-- R94: one word a family, its bits as spec/95_test_vectors.md gives them, decodes to its command; and three illegal ones. -/
def Obligations.DecodeSampleWords : Prop :=
  decode 0x0102030400000004#64 = .ok (.createBank 2 3 4 4) ∧ decode 0x1000000100000017#64 = .ok (.setArrayPin 23 true) ∧
  decode 0x200200010000FFFF#64 = .ok (.setBankPin 2 65535 true) ∧ decode 0x3201000100000000#64 = .ok (.setBanks 1 0 true) ∧
  decode 0x4000015500000000#64 = .ok (.setBankSipo 0 1 0x55#8) ∧ decode 0x5100000000000000#64 = .ok .invertAllArrayPins ∧
  decode 0x6000010100000000#64 = .ok (.xferBanks 0 1 .msbFirst) ∧ decode 0x7200000000000064#64 = .ok (.isElapsed 0 100) ∧
  decode 0x0000000000000000#64 = .error (.unassignedOp 0) ∧ decode 0x1500000000000000#64 = .error (.unassignedOp 0x15) ∧
  decode 0x1000000200000000#64 = .error (.reservedNotZero 0x10)

/-- R97: the fields of the result word (the spec's decision D11, log 16). -/
def Obligations.ResultWordFields : Prop :=
  ∀ r : Result, r.wf → r.word.extractLsb' 28 4 = BitVec.ofNat 4 r.status ∧ r.word.extractLsb' 16 12 = 0 ∧
    r.word.extractLsb' 0 16 = BitVec.ofNat 16 r.value ∧ (r.ok = true ↔ r.status = 0)

/-- R101, R102: a line of text and its synonyms stand for the command (the spec's decisions D8, log 16, and D18, log 21);
the last line is refused by the operand widths of R8 (the spec's decision D2, log 11). -/
def Obligations.TextFormsOfCommands : Prop :=
  assembleLine "CREATE_BANK 2, 3, 4, 2" = .ok (some (.createBank 2 3 4 2)) ∧
  assembleLine "set_array_pin(0, 1)" = .ok (some (.setArrayPin 0 true)) ∧
  assembleLine "SET_ARRAY_PIN 0, HIGH" = .ok (some (.setArrayPin 0 true)) ∧
  assembleLine "XFER_ALL_BANKS LSB_FIRST ; alias" = assembleLine "XFER_ARRAY LSB_FIRST" ∧
  assembleLine "XFER_ARRAY LSB_FIRST" = .ok (some (.xferArray .lsbFirst)) ∧
  assembleLine "TRANSFER 0, 0x1, MSB_FIRST" = .ok (some (.xferBanks 0 1 .msbFirst)) ∧
  assembleLine "START_TIMER 256" = .error .operandTooWide

/-! ### Bank Allocator -/

/-- R120: CREATE_BANK, success and failure. The six events are said as a set, each line's `Cfg` before its `Wr`, because
their order is the spec's own decision (D13, log 6). -/
def Obligations.CreateBankAllocates : Prop :=
  ∀ s data clock latch count, s.Inv →
    (1 ≤ count → s.devUsed + count ≤ s.cfg.nDev →
      ∃ t events, exec (.createBank data clock latch count) s = .next t ∧
        t = { s with banks := s.banks ++ [⟨data, clock, latch, count, s.pinsActive, s.pinsActive + count * 8 - 1⟩],
                     devUsed := s.devUsed + count, pinsActive := s.pinsActive + count * 8,
                     line := t.line, trace := s.trace ++ events, result := .okVal s.banksUsed } ∧
        events.Perm [.cfg data, .wr data false, .cfg clock, .wr clock false, .cfg latch, .wr latch false] ∧
        (∀ before l after, events = before ++ .wr l false :: after → .cfg l ∈ before) ∧
        (∀ l, t.lineImage l = if l = data ∨ l = clock ∨ l = latch then ⟨.output, .known false⟩ else s.lineImage l)) ∧
    (count = 0 ∨ s.cfg.nDev < s.devUsed + count →
      exec (.createBank data clock latch count) s = .next { s with result := .err .eCreate })

/-- R121, whole: no deallocation or reordering; the pin count of a new bank; ranges sized, disjoint and contiguous. -/
def Obligations.BankAllocationProperties : Prop :=
  (∀ s t, step s = .next t → s.banks <+: t.banks) ∧
  (∀ s data clock latch count, 1 ≤ count → s.devUsed + count ≤ s.cfg.nDev →
    ∃ t k, exec (.createBank data clock latch count) s = .next t ∧ t.result = .okVal k ∧
      exec (.numPinsInBank k) t = .next { t with result := .okVal (count * 8) }) ∧
  (∀ s : State, s.Inv → ∀ (k : Nat) b, s.banks[k]? = some b → b.high - b.low + 1 = b.count * 8 ∧ b.low ≤ b.high ∧
    (∀ b', s.banks[k + 1]? = some b' → b'.low = b.high + 1) ∧
    (∀ (j : Nat) b', s.banks[j]? = some b' → k < j → b.high < b'.low))

/-- R27, R29: no command other than CREATE_BANK writes a descriptor or a counter, and CREATE_BANK writes at most the one
entry `BANKS_USED`. -/
def Obligations.OnlyCreateBankWritesBanks : Prop :=
  ∀ i s t, exec i s = .next t →
    (i.isCreate = false → t.banks = s.banks ∧ t.views = s.views) ∧
    (i.isCreate = true → t.banks = s.banks ∨ ∃ b, t.banks = s.banks ++ [b])

/-- R7, R30: the capacities are constant and the counters never decrease. -/
def Obligations.CountersNeverDecrease : Prop :=
  ∀ s t, step s = .next t → t.cfg = s.cfg ∧ s.devUsed ≤ t.devUsed ∧ s.pinsActive ≤ t.pinsActive ∧ s.banksUsed ≤ t.banksUsed

/-! ### Pins and queries -/

/-- R130: SET_ARRAY_PIN, success and failure. -/
def Obligations.SetArrayPinWritesOneBit : Prop :=
  ∀ s p level, s.Inv →
    (p < s.pinsActive → ∃ t, exec (.setArrayPin p level) s = .next t ∧ PinWritten s t p level p) ∧
    (s.pinsActive ≤ p → exec (.setArrayPin p level) s = .next { s with result := .err .ePin })

/-- R131: INVERT_ARRAY_PIN flips the bit and returns the level after the flip; twice restores the store. -/
def Obligations.InvertArrayPinFlipsOneBit : Prop :=
  ∀ s p, s.Inv →
    (p < s.pinsActive →
      ∃ t u, exec (.invertArrayPin p) s = .next t ∧ PinWritten s t p (!s.pin p) (if s.pin p = true then 0 else 1) ∧
        exec (.invertArrayPin p) t = .next u ∧ u.sb = s.sb) ∧
    (s.pinsActive ≤ p → exec (.invertArrayPin p) s = .next { s with result := .err .ePin })

/-- R132: READ_ARRAY_PIN returns the bit and changes nothing but `RESULT`; its bound is the spec's inference. -/
def Obligations.ReadArrayPinReturnsBit : Prop :=
  ∀ s p, s.Inv →
    (p < s.pinsActive → exec (.readArrayPin p) s = .next { s with result := .okVal (if s.pin p = true then 1 else 0) }) ∧
    (s.pinsActive ≤ p → exec (.readArrayPin p) s = .next { s with result := .err .ePin })

/-- R133, R206, R243: SET_BANK_PIN checks the bank, then acts on pin `BANK[k].low + r` with no bank-local bound;
the failure kind of a bad bank is the spec's decision D20 (log 10). -/
def Obligations.SetBankPinWritesTranslatedPin : Prop :=
  ∀ s k r level, s.Inv →
    (s.banksUsed ≤ k → exec (.setBankPin k r level) s = .next { s with result := .err .eBank }) ∧
    (∀ b, s.banks[k]? = some b →
      (b.low + r < s.pinsActive → ∃ t, exec (.setBankPin k r level) s = .next t ∧ PinWritten s t (b.low + r) level (b.low + r)) ∧
      (s.pinsActive ≤ b.low + r → exec (.setBankPin k r level) s = .next { s with result := .err .ePin }))

/-- R134: INVERT_BANK_PIN, in the same way (log 10). -/
def Obligations.InvertBankPinFlipsTranslatedPin : Prop :=
  ∀ s k r, s.Inv →
    (s.banksUsed ≤ k → exec (.invertBankPin k r) s = .next { s with result := .err .eBank }) ∧
    (∀ b, s.banks[k]? = some b →
      (b.low + r < s.pinsActive → ∃ t, exec (.invertBankPin k r) s = .next t ∧
        PinWritten s t (b.low + r) (!s.pin (b.low + r)) (if s.pin (b.low + r) = true then 0 else 1)) ∧
      (s.pinsActive ≤ b.low + r → exec (.invertBankPin k r) s = .next { s with result := .err .ePin }))

/-- R135: READ_BANK_PIN, in the same way (log 10). -/
def Obligations.ReadBankPinReturnsTranslatedBit : Prop :=
  ∀ s k r, s.Inv →
    (s.banksUsed ≤ k → exec (.readBankPin k r) s = .next { s with result := .err .eBank }) ∧
    (∀ b, s.banks[k]? = some b →
      (b.low + r < s.pinsActive →
        exec (.readBankPin k r) s = .next { s with result := .okVal (if s.pin (b.low + r) = true then 1 else 0) }) ∧
      (s.pinsActive ≤ b.low + r → exec (.readBankPin k r) s = .next { s with result := .err .ePin }))

/-- R136, R66: GET_BANK_FROM_PIN returns the unique bank that contains the pin, and fails exactly beyond the active range;
the failure kind is the spec's decision D20 (log 10). -/
def Obligations.GetBankFromPinFindsUniqueBank : Prop :=
  ∀ s p, s.Inv →
    (p < s.pinsActive → ∃ k b, exec (.getBankFromPin p) s = .next { s with result := .okVal k } ∧ s.banks[k]? = some b ∧
      b.low ≤ p ∧ p ≤ b.high ∧ ∀ (j : Nat) b', s.banks[j]? = some b' → b'.low ≤ p → p ≤ b'.high → j = k) ∧
    (s.pinsActive ≤ p → exec (.getBankFromPin p) s = .next { s with result := .err .ePin })

/-- R137: NUM_PINS_IN_BANK returns `device_count * 8`, which is the size of the bank's range; the failure kind
is the spec's decision D20 (log 10). -/
def Obligations.NumPinsInBankCounts : Prop :=
  ∀ s k, s.Inv →
    (s.banksUsed ≤ k → exec (.numPinsInBank k) s = .next { s with result := .err .eBank }) ∧
    (∀ b, s.banks[k]? = some b → exec (.numPinsInBank k) s = .next { s with result := .okVal (b.count * 8) } ∧
      b.count * 8 = b.high - b.low + 1)

/-! ### Whole banks, devices and the array -/

/-- R150, R151: SET_BANK and INVERT_BANK act on exactly the pins of the bank; on an unallocated bank they are silent
no-ops (the spec's decision D15, log 9). -/
def Obligations.BankCommandsMapTheirPins : Prop :=
  ∀ s k level, s.Inv →
    (∀ b, s.banks[k]? = some b →
      (∃ t, exec (.setBank k level) s = .next t ∧ PinsMapped s t b.low b.high (fun _ => level)) ∧
      (∃ t, exec (.invertBank k) s = .next t ∧ PinsMapped s t b.low b.high (fun v => !v))) ∧
    (s.banksUsed ≤ k → exec (.setBank k level) s = .next { s with result := .okUnit } ∧
      exec (.invertBank k) s = .next { s with result := .okUnit })

/-- R152: SET_BANKS acts on exactly the pins of the banks of a valid range; a malformed range is a silent no-op. -/
def Obligations.SetBanksFillsRange : Prop :=
  ∀ s first last level, s.Inv →
    (∀ bf bl, first ≤ last → s.banks[first]? = some bf → s.banks[last]? = some bl →
      ∃ t, exec (.setBanks first last level) s = .next t ∧ PinsMapped s t bf.low bl.high (fun _ => level)) ∧
    (last < first ∨ s.banksUsed ≤ last → exec (.setBanks first last level) s = .next { s with result := .okUnit })

/-- R153: INVERT_BANKS, in the same way; twice restores the store. -/
def Obligations.InvertBanksFlipsRange : Prop :=
  ∀ s first last, s.Inv →
    (∀ bf bl, first ≤ last → s.banks[first]? = some bf → s.banks[last]? = some bl →
      ∃ t u, exec (.invertBanks first last) s = .next t ∧ PinsMapped s t bf.low bl.high (fun v => !v) ∧
        exec (.invertBanks first last) t = .next u ∧ u.sb = s.sb) ∧
    (last < first ∨ s.banksUsed ≤ last → exec (.invertBanks first last) s = .next { s with result := .okUnit })

/-- R154: SET_BANK and INVERT_BANK leave the same store as the single-pin command on every pin of the bank, in any order. -/
def Obligations.BankCommandsEqualPinLoops : Prop :=
  ∀ (s : State) (k : Nat) (b : Bank) (level : Level) (pins : List Nat), s.Inv → s.banks[k]? = some b → pins.Perm ((List.range (8 * b.count)).map (fun t => b.low + t)) →
    (∃ t u, exec (.setBank k level) s = .next t ∧ runCommands (pins.map fun p => .setArrayPin p level) s = .next u ∧ u.sb = t.sb) ∧
    (∃ t u, exec (.invertBank k) s = .next t ∧ runCommands (pins.map fun p => .invertArrayPin p) s = .next u ∧ u.sb = t.sb)

/-- R155, R206: SET_BANK_SIPO. The success value is the spec's decision D16 (log 8). -/
def Obligations.SetBankSipoWritesByte : Prop :=
  ∀ s k d value, s.Inv →
    (s.banksUsed ≤ k → exec (.setBankSipo k d value) s = .next { s with result := .err .eBank }) ∧
    (∀ b, s.banks[k]? = some b →
      (d < b.count → ∃ t, exec (.setBankSipo k d value) s = .next t ∧ ByteWritten s t (b.low / 8 + d) value) ∧
      (b.count ≤ d → exec (.setBankSipo k d value) s = .next { s with result := .err .eDevice }))

/-- R156: INVERT_BANK_SIPO. The success value is the spec's decision D16 (log 8). -/
def Obligations.InvertBankSipoComplementsByte : Prop :=
  ∀ s k d, s.Inv →
    (s.banksUsed ≤ k → exec (.invertBankSipo k d) s = .next { s with result := .err .eBank }) ∧
    (∀ b, s.banks[k]? = some b →
      (d < b.count → ∃ t, exec (.invertBankSipo k d) s = .next t ∧ ByteWritten s t (b.low / 8 + d) (~~~(s.sb.read (b.low / 8 + d)))) ∧
      (b.count ≤ d → exec (.invertBankSipo k d) s = .next { s with result := .err .eDevice }))

/-- R157: READ_BANK_SIPO returns the byte, whose bit `j` is the level of the bank's pin `8*d + j`. -/
def Obligations.ReadBankSipoReturnsByte : Prop :=
  ∀ s k d, s.Inv →
    (s.banksUsed ≤ k → exec (.readBankSipo k d) s = .next { s with result := .err .eBank }) ∧
    (∀ b, s.banks[k]? = some b →
      (d < b.count → ∃ byte : Byte, exec (.readBankSipo k d) s = .next { s with result := .okVal byte.toNat } ∧
        byte = s.sb.read (b.low / 8 + d) ∧ ∀ j, j < 8 → byte.getLsbD j = s.pin (b.low + (8 * d + j))) ∧
      (b.count ≤ d → exec (.readBankSipo k d) s = .next { s with result := .err .eDevice }))

/-- R158: SET_ALL_ARRAY_PINS writes every reserved byte, allocated or not; twice in a row is once. -/
def Obligations.SetAllArrayPinsFillsStore : Prop :=
  ∀ s level, s.Inv →
    ∃ t, exec (.setAllArrayPins level) s = .next t ∧ AllBytesMapped s t (fun _ => if level = true then 0xFF#8 else 0x00#8) ∧
      exec (.setAllArrayPins level) t = .next t

/-- R159: INVERT_ALL_ARRAY_PINS complements every reserved byte, allocated or not; twice restores the store. -/
def Obligations.InvertAllArrayPinsComplementsStore : Prop :=
  ∀ s, s.Inv → ∃ t u, exec .invertAllArrayPins s = .next t ∧ AllBytesMapped s t (fun v => ~~~v) ∧
    exec .invertAllArrayPins t = .next u ∧ u.sb = s.sb

/-- R69, R131, R151, R153, R156, R159: an INVERT command twice in succession restores the store. -/
def Obligations.InvertTwiceRestoresStore : Prop :=
  ∀ i s t u, s.Inv → i.isInvert = true → exec i s = .next t → exec i t = .next u → u.sb = s.sb

/-- R69: a SET command, a READ or query, and STOP_TIMER, issued twice in a row, equal the command issued once. -/
def Obligations.IdempotentCommands : Prop :=
  ∀ i s t, s.Inv → i.isIdempotent = true → exec i s = .next t → exec i t = .next t

/-! ### Transfers -/

/-- R172 to R176: XFER_BANK emits exactly one frame, three events a pin in the order of R174, and changes nothing else; on
an unallocated bank it emits nothing. -/
def Obligations.XferBankEmitsFrame : Prop :=
  ∀ s k order, s.Inv →
    (∀ b, s.banks[k]? = some b → ∃ t, exec (.xferBank k order) s = .next t ∧ Emitted s t (frameOfPins s order b)) ∧
    (s.banksUsed ≤ k → exec (.xferBank k order) s = .next { s with result := .okUnit })

/-- R170 to R172: XFER_BANKS emits the frames of banks `first..last`, ascending (the spec's decision D14, log 7). -/
def Obligations.XferBanksEmitsFramesInOrder : Prop :=
  ∀ s first last order, s.Inv → first ≤ last → last < s.banksUsed →
    ∃ t, exec (.xferBanks first last order) s = .next t ∧
      Emitted s t ((List.range' first (last + 1 - first)).flatMap fun k => s.banks[k]?.toList.flatMap (frameOfPins s order))

/-- R171: a malformed range transfers nothing: no event, no change but `RESULT`. -/
def Obligations.XferMalformedRangeIsNoOp : Prop :=
  ∀ s first last order, ¬ (first ≤ last ∧ last < s.banksUsed) →
    exec (.xferBanks first last order) s = .next { s with result := .okUnit }

/-- R177: XFER_ARRAY emits the frames of every allocated bank, and nothing when there is none (the spec's decision
D18, log 21; the order of the banks D14, log 7). -/
def Obligations.XferArrayEmitsEveryBank : Prop :=
  ∀ s order, s.Inv → ∃ t, exec (.xferArray order) s = .next t ∧ Emitted s t (s.banks.flatMap (frameOfPins s order))

/-- R181: a valid transfer of banks `first..last` is `2` events a bank and `24` a device, none of them a `Cfg`. -/
def Obligations.TransferLength : Prop :=
  ∀ s first last order t, s.Inv → first ≤ last → last < s.banksUsed → exec (.xferBanks first last order) s = .next t →
    t.trace.length = s.trace.length + 2 * (last - first + 1) + 24 * totalDevices ((s.banks.drop first).take (last - first + 1)) ∧
    ∀ e ∈ t.trace.drop s.trace.length, ∃ l v, e = .wr l v

/-- R180: the levels a frame leaves, for a bank with three distinct lines; every other line is as before. -/
def Obligations.FrameLeavesLineLevels : Prop :=
  ∀ s k b order t, s.Inv → s.banks[k]? = some b → b.linesDistinct → exec (.xferBank k order) s = .next t →
    (t.lineImage b.latch).level = .known true ∧ (t.lineImage b.clock).level = .known false ∧
    (t.lineImage b.data).level = .known (s.pin (match order with | .msbFirst => b.low | .lsbFirst => b.high)) ∧
    (∀ l, (t.lineImage l).dir = (s.lineImage l).dir) ∧
    (∀ l, l ≠ b.data → l ≠ b.clock → l ≠ b.latch → t.lineImage l = s.lineImage l)

/-- R172, R180: the latch line is low from the first event of a frame to the last but one. -/
def Obligations.LatchLowDuringFrame : Prop :=
  ∀ s k b order t before after, s.Inv → s.banks[k]? = some b → b.linesDistinct → exec (.xferBank k order) s = .next t →
    t.trace = s.trace ++ before ++ after → before ≠ [] → after ≠ [] → levelAfter s before b.latch = .known false

/-- R175: within a frame the data line is written only while the clock line is not high, and a clock pulse sees the level
written before it. -/
def Obligations.DataStableDuringClockPulse : Prop :=
  ∀ s k b order t before v after, s.Inv → s.banks[k]? = some b → b.linesDistinct → exec (.xferBank k order) s = .next t →
    (s.lineImage b.clock).level ≠ .known true → t.trace = s.trace ++ before ++ .wr b.data v :: after →
    levelAfter s before b.clock ≠ .known true ∧ ∃ rest, after = .wr b.clock true :: .wr b.clock false :: rest

/-- R174: the data levels of an LSB-first frame are those of the MSB-first frame in reverse. -/
def Obligations.BitOrdersAreReverses : Prop :=
  ∀ s k b t u, s.Inv → s.banks[k]? = some b → b.linesDistinct →
    exec (.xferBank k .msbFirst) s = .next t → exec (.xferBank k .lsbFirst) s = .next u →
    levelsWritten b.data (u.trace.drop s.trace.length) = (levelsWritten b.data (t.trace.drop s.trace.length)).reverse

/-- R182 (informative model of the devices): after an MSB-first frame, output `j` of the chain shows pin `low + j`; after an
LSB-first frame, pin `high - j`: whatever the chain held before. -/
def Obligations.FrameShowsStoreOnDevices : Prop :=
  ∀ s k b t u (c : Chain), s.Inv → s.banks[k]? = some b → b.linesDistinct → c.stages.length = 8 * b.count →
    exec (.xferBank k .msbFirst) s = .next t → exec (.xferBank k .lsbFirst) s = .next u →
    (c.watch b (t.trace.drop s.trace.length)).outputs = (List.range (8 * b.count)).map (fun j => s.pin (b.low + j)) ∧
    (c.watch b (u.trace.drop s.trace.length)).outputs = (List.range (8 * b.count)).map (fun j => s.pin (b.high - j))

/-! ### Timers -/

/-- R190: START_TIMER on a valid slot captures one clock sample, which the clock's law alone constrains (the number of
samples is the spec's decision D28, log 4); on an invalid slot it is a silent no-op. -/
def Obligations.StartTimerCapturesInstant : Prop :=
  ∀ s slot, s.Inv →
    (slot < s.cfg.nTmr → s.ClockOk →
      ∃ t now, exec (.startTimer slot) s = .next t ∧ s.lastSample ≤ now ∧ (∀ n ∈ s.clock.head?, now = n) ∧
        t.timer slot = .counting now ∧ (∀ j, j ≠ slot → t.timer j = s.timer j) ∧
        t = { s with tmr := t.tmr, result := .okUnit, clock := s.clock.tail, lastSample := now, draws := t.draws }) ∧
    (s.cfg.nTmr ≤ slot → exec (.startTimer slot) s = .next { s with result := .okUnit })

/-- R191: STOP_TIMER idles the slot, discarding its instant, so that IS_ELAPSED is false for every duration; on an invalid
slot it is a silent no-op. -/
def Obligations.StopTimerIdlesSlot : Prop :=
  ∀ s slot, s.Inv →
    (slot < s.cfg.nTmr → ∃ t, exec (.stopTimer slot) s = .next t ∧ t.timer slot = .idle ∧
      (∀ j, j ≠ slot → t.timer j = s.timer j) ∧ t = { s with tmr := t.tmr, result := .okUnit } ∧
      ∀ duration, exec (.isElapsed slot duration) t = .next { t with result := .okVal 0 }) ∧
    (s.cfg.nTmr ≤ slot → exec (.stopTimer slot) s = .next { s with result := .okUnit })

/-- R192: IS_ELAPSED. An idle or invalid slot gives false; a counting one gives true and becomes idle exactly when
`now - start >= duration`, and otherwise false and counts on from the same start (one sample only where the
slot counts: the spec's decision D28, log 4). -/
def Obligations.IsElapsedConsumesSlot : Prop :=
  ∀ s slot duration, s.Inv →
    (s.cfg.nTmr ≤ slot ∨ s.timer slot = .idle → exec (.isElapsed slot duration) s = .next { s with result := .okVal 0 }) ∧
    (∀ start, slot < s.cfg.nTmr → s.timer slot = .counting start → s.ClockOk →
      ∃ t now, exec (.isElapsed slot duration) s = .next t ∧ s.lastSample ≤ now ∧ start ≤ now ∧ (∀ n ∈ s.clock.head?, now = n) ∧
        (start.toNat + duration ≤ now.toNat → t.result = .okVal 1 ∧ t.timer slot = .idle) ∧
        (now.toNat < start.toNat + duration → t.result = .okVal 0 ∧ t.timer slot = .counting start) ∧
        (∀ j, j ≠ slot → t.timer j = s.timer j) ∧
        t = { s with tmr := t.tmr, result := t.result, clock := s.clock.tail, lastSample := now, draws := t.draws })

/-- R193 and U3: where the environment presents a sample below an earlier one, a command that samples the clock has no run (log 4). -/
def Obligations.BackwardClockIsNoRun : Prop :=
  ∀ s slot duration start, ¬ s.ClockOk → slot < s.cfg.nTmr →
    exec (.startTimer slot) s = .refused .clockWentBackwards ∧
    (s.timer slot = .counting start → exec (.isElapsed slot duration) s = .refused .clockWentBackwards)

/-- R32, R39: only START_TIMER of a slot makes it count, and only START_TIMER, STOP_TIMER and an IS_ELAPSED of that slot
write it. -/
def Obligations.OnlyStartTimerArmsSlot : Prop :=
  ∀ i s t slot, s.Inv → exec i s = .next t →
    (s.timer slot = .idle → i ≠ .startTimer slot → t.timer slot = .idle) ∧
    (i ≠ .startTimer slot → i ≠ .stopTimer slot → (∀ duration, i ≠ .isElapsed slot duration) → t.timer slot = s.timer slot)

/-- R193: the samples are non-decreasing, and only START_TIMER and IS_ELAPSED sample the clock. -/
def Obligations.ClockNeverGoesBack : Prop :=
  ∀ i s t, exec i s = .next t → s.lastSample ≤ t.lastSample ∧
    ((∀ slot, i ≠ .startTimer slot) → (∀ slot duration, i ≠ .isElapsed slot duration) →
      t.clock = s.clock ∧ t.lastSample = s.lastSample ∧ t.draws = s.draws)

/-! ### Rules about all commands -/

/-- R203: a failing command changes `RESULT` and nothing else: no line event, no clock sample. -/
def Obligations.FailureChangesOnlyResult : Prop :=
  ∀ s t kind, step s = .next t → t.result = .err kind → t = { s with commands := s.commands.tail, result := .err kind }

/-- R34: the trace is append-only, and only CREATE_BANK and the transfers append to it or touch a line (R33). -/
def Obligations.TraceIsAppendOnly : Prop :=
  ∀ i s t, exec i s = .next t → s.trace <+: t.trace ∧
    (i.isCreate = false → i.isTransfer = false → t.trace = s.trace ∧ t.line = s.line)

/-- R24: only the twelve SET and INVERT commands write the store; a transfer never does. -/
def Obligations.OnlyStoreCommandsWriteBytes : Prop :=
  ∀ i s t, exec i s = .next t → i.writesStore = false → t.sb = s.sb

/-- R35: `RESULT` is overwritten by every command and read by none. -/
def Obligations.ResultIsReadByNoCommand : Prop :=
  ∀ i (s : State) r, exec i { s with result := r } = exec i s

/-- The Timer Utility shares nothing with the rest of the block but the construction parameters: a timer command leaves the
store, the banks, the counters and the lines alone, and acts the same whatever they are. -/
def Obligations.TimersShareNothingWithStore : Prop :=
  ∀ i s t (other : State), i.isTimer = true → exec i s = .next t →
    exec i { s with sb := other.sb, banks := other.banks, devUsed := other.devUsed, pinsActive := other.pinsActive,
                    line := other.line, trace := other.trace } =
      .next { t with sb := other.sb, banks := other.banks, devUsed := other.devUsed, pinsActive := other.pinsActive,
                     line := other.line, trace := other.trace } ∧
    t.sb = s.sb ∧ t.banks = s.banks ∧ t.views = s.views ∧ t.line = s.line ∧ t.trace = s.trace
end

