-- ==== Sys2Proof/Laws/State.lean ====
section
/-! SUPPORT. One lemma per field per state update, so that no proof unfolds a record update. -/
namespace Sys2Proof.Machine

/-! ### setResult -/

@[simp] theorem State.setResult_cfg (s : State) (r : Result) : (s.setResult r).cfg = s.cfg := rfl
@[simp] theorem State.setResult_sb (s : State) (r : Result) : (s.setResult r).sb = s.sb := rfl
@[simp] theorem State.setResult_banks (s : State) (r : Result) : (s.setResult r).banks = s.banks := rfl
@[simp] theorem State.setResult_devUsed (s : State) (r : Result) : (s.setResult r).devUsed = s.devUsed := rfl
@[simp] theorem State.setResult_pinsActive (s : State) (r : Result) : (s.setResult r).pinsActive = s.pinsActive := rfl
@[simp] theorem State.setResult_tmr (s : State) (r : Result) : (s.setResult r).tmr = s.tmr := rfl
@[simp] theorem State.setResult_line (s : State) (r : Result) : (s.setResult r).line = s.line := rfl
@[simp] theorem State.setResult_result (s : State) (r : Result) : (s.setResult r).result = r := rfl
@[simp] theorem State.setResult_trace (s : State) (r : Result) : (s.setResult r).trace = s.trace := rfl
@[simp] theorem State.setResult_commands (s : State) (r : Result) : (s.setResult r).commands = s.commands := rfl
@[simp] theorem State.setResult_clock (s : State) (r : Result) : (s.setResult r).clock = s.clock := rfl
@[simp] theorem State.setResult_lastSample (s : State) (r : Result) : (s.setResult r).lastSample = s.lastSample := rfl
@[simp] theorem State.setResult_draws (s : State) (r : Result) : (s.setResult r).draws = s.draws := rfl

/-! ### setTimer -/

@[simp] theorem State.setTimer_cfg (s : State) (slot : Nat) (x : Timer) : (s.setTimer slot x).cfg = s.cfg := rfl
@[simp] theorem State.setTimer_sb (s : State) (slot : Nat) (x : Timer) : (s.setTimer slot x).sb = s.sb := rfl
@[simp] theorem State.setTimer_banks (s : State) (slot : Nat) (x : Timer) : (s.setTimer slot x).banks = s.banks := rfl
@[simp] theorem State.setTimer_devUsed (s : State) (slot : Nat) (x : Timer) : (s.setTimer slot x).devUsed = s.devUsed := rfl
@[simp] theorem State.setTimer_pinsActive (s : State) (slot : Nat) (x : Timer) : (s.setTimer slot x).pinsActive = s.pinsActive := rfl
@[simp] theorem State.setTimer_tmr (s : State) (slot : Nat) (x : Timer) : (s.setTimer slot x).tmr = Table.put .idle s.tmr slot x := rfl
@[simp] theorem State.setTimer_line (s : State) (slot : Nat) (x : Timer) : (s.setTimer slot x).line = s.line := rfl
@[simp] theorem State.setTimer_result (s : State) (slot : Nat) (x : Timer) : (s.setTimer slot x).result = s.result := rfl
@[simp] theorem State.setTimer_trace (s : State) (slot : Nat) (x : Timer) : (s.setTimer slot x).trace = s.trace := rfl
@[simp] theorem State.setTimer_commands (s : State) (slot : Nat) (x : Timer) : (s.setTimer slot x).commands = s.commands := rfl
@[simp] theorem State.setTimer_clock (s : State) (slot : Nat) (x : Timer) : (s.setTimer slot x).clock = s.clock := rfl
@[simp] theorem State.setTimer_lastSample (s : State) (slot : Nat) (x : Timer) : (s.setTimer slot x).lastSample = s.lastSample := rfl
@[simp] theorem State.setTimer_draws (s : State) (slot : Nat) (x : Timer) : (s.setTimer slot x).draws = s.draws := rfl

/-! ### setPin -/

@[simp] theorem State.setPin_cfg (s : State) (p : Nat) (v : Level) : (s.setPin p v).cfg = s.cfg := rfl
@[simp] theorem State.setPin_sb (s : State) (p : Nat) (v : Level) : (s.setPin p v).sb = s.sb.write (pinByte p) (setBit (s.sb.read (pinByte p)) (pinBit p) v) := rfl
@[simp] theorem State.setPin_banks (s : State) (p : Nat) (v : Level) : (s.setPin p v).banks = s.banks := rfl
@[simp] theorem State.setPin_devUsed (s : State) (p : Nat) (v : Level) : (s.setPin p v).devUsed = s.devUsed := rfl
@[simp] theorem State.setPin_pinsActive (s : State) (p : Nat) (v : Level) : (s.setPin p v).pinsActive = s.pinsActive := rfl
@[simp] theorem State.setPin_tmr (s : State) (p : Nat) (v : Level) : (s.setPin p v).tmr = s.tmr := rfl
@[simp] theorem State.setPin_line (s : State) (p : Nat) (v : Level) : (s.setPin p v).line = s.line := rfl
@[simp] theorem State.setPin_result (s : State) (p : Nat) (v : Level) : (s.setPin p v).result = s.result := rfl
@[simp] theorem State.setPin_trace (s : State) (p : Nat) (v : Level) : (s.setPin p v).trace = s.trace := rfl
@[simp] theorem State.setPin_commands (s : State) (p : Nat) (v : Level) : (s.setPin p v).commands = s.commands := rfl
@[simp] theorem State.setPin_clock (s : State) (p : Nat) (v : Level) : (s.setPin p v).clock = s.clock := rfl
@[simp] theorem State.setPin_lastSample (s : State) (p : Nat) (v : Level) : (s.setPin p v).lastSample = s.lastSample := rfl
@[simp] theorem State.setPin_draws (s : State) (p : Nat) (v : Level) : (s.setPin p v).draws = s.draws := rfl

/-! ### mapAllBytes -/

@[simp] theorem State.mapAllBytes_cfg (s : State) (f : Byte → Byte) : (s.mapAllBytes f).cfg = s.cfg := rfl
@[simp] theorem State.mapAllBytes_sb (s : State) (f : Byte → Byte) : (s.mapAllBytes f).sb = s.sb.mapRun f 0 s.cfg.nDev := rfl
@[simp] theorem State.mapAllBytes_banks (s : State) (f : Byte → Byte) : (s.mapAllBytes f).banks = s.banks := rfl
@[simp] theorem State.mapAllBytes_devUsed (s : State) (f : Byte → Byte) : (s.mapAllBytes f).devUsed = s.devUsed := rfl
@[simp] theorem State.mapAllBytes_pinsActive (s : State) (f : Byte → Byte) : (s.mapAllBytes f).pinsActive = s.pinsActive := rfl
@[simp] theorem State.mapAllBytes_tmr (s : State) (f : Byte → Byte) : (s.mapAllBytes f).tmr = s.tmr := rfl
@[simp] theorem State.mapAllBytes_line (s : State) (f : Byte → Byte) : (s.mapAllBytes f).line = s.line := rfl
@[simp] theorem State.mapAllBytes_result (s : State) (f : Byte → Byte) : (s.mapAllBytes f).result = s.result := rfl
@[simp] theorem State.mapAllBytes_trace (s : State) (f : Byte → Byte) : (s.mapAllBytes f).trace = s.trace := rfl
@[simp] theorem State.mapAllBytes_commands (s : State) (f : Byte → Byte) : (s.mapAllBytes f).commands = s.commands := rfl
@[simp] theorem State.mapAllBytes_clock (s : State) (f : Byte → Byte) : (s.mapAllBytes f).clock = s.clock := rfl
@[simp] theorem State.mapAllBytes_lastSample (s : State) (f : Byte → Byte) : (s.mapAllBytes f).lastSample = s.lastSample := rfl
@[simp] theorem State.mapAllBytes_draws (s : State) (f : Byte → Byte) : (s.mapAllBytes f).draws = s.draws := rfl

/-! ### emit -/

@[simp] theorem State.emit_cfg (s : State) (es : List LineEvent) : (s.emit es).cfg = s.cfg := rfl
@[simp] theorem State.emit_sb (s : State) (es : List LineEvent) : (s.emit es).sb = s.sb := rfl
@[simp] theorem State.emit_banks (s : State) (es : List LineEvent) : (s.emit es).banks = s.banks := rfl
@[simp] theorem State.emit_devUsed (s : State) (es : List LineEvent) : (s.emit es).devUsed = s.devUsed := rfl
@[simp] theorem State.emit_pinsActive (s : State) (es : List LineEvent) : (s.emit es).pinsActive = s.pinsActive := rfl
@[simp] theorem State.emit_tmr (s : State) (es : List LineEvent) : (s.emit es).tmr = s.tmr := rfl
@[simp] theorem State.emit_line (s : State) (es : List LineEvent) : (s.emit es).line = es.foldl applyEvent s.line := rfl
@[simp] theorem State.emit_result (s : State) (es : List LineEvent) : (s.emit es).result = s.result := rfl
@[simp] theorem State.emit_trace (s : State) (es : List LineEvent) : (s.emit es).trace = s.trace ++ es := rfl
@[simp] theorem State.emit_commands (s : State) (es : List LineEvent) : (s.emit es).commands = s.commands := rfl
@[simp] theorem State.emit_clock (s : State) (es : List LineEvent) : (s.emit es).clock = s.clock := rfl
@[simp] theorem State.emit_lastSample (s : State) (es : List LineEvent) : (s.emit es).lastSample = s.lastSample := rfl
@[simp] theorem State.emit_draws (s : State) (es : List LineEvent) : (s.emit es).draws = s.draws := rfl

/-! ### allocate -/

@[simp] theorem State.allocate_cfg (s : State) (b : Bank) : (s.allocate b).cfg = s.cfg := rfl
@[simp] theorem State.allocate_sb (s : State) (b : Bank) : (s.allocate b).sb = s.sb := rfl
@[simp] theorem State.allocate_banks (s : State) (b : Bank) : (s.allocate b).banks = s.banks ++ [b] := rfl
@[simp] theorem State.allocate_devUsed (s : State) (b : Bank) : (s.allocate b).devUsed = s.devUsed + b.count := rfl
@[simp] theorem State.allocate_pinsActive (s : State) (b : Bank) : (s.allocate b).pinsActive = s.pinsActive + b.count * 8 := rfl
@[simp] theorem State.allocate_tmr (s : State) (b : Bank) : (s.allocate b).tmr = s.tmr := rfl
@[simp] theorem State.allocate_line (s : State) (b : Bank) : (s.allocate b).line = s.line := rfl
@[simp] theorem State.allocate_result (s : State) (b : Bank) : (s.allocate b).result = s.result := rfl
@[simp] theorem State.allocate_trace (s : State) (b : Bank) : (s.allocate b).trace = s.trace := rfl
@[simp] theorem State.allocate_commands (s : State) (b : Bank) : (s.allocate b).commands = s.commands := rfl
@[simp] theorem State.allocate_clock (s : State) (b : Bank) : (s.allocate b).clock = s.clock := rfl
@[simp] theorem State.allocate_lastSample (s : State) (b : Bank) : (s.allocate b).lastSample = s.lastSample := rfl
@[simp] theorem State.allocate_draws (s : State) (b : Bank) : (s.allocate b).draws = s.draws := rfl

/-! ### issue -/

@[simp] theorem State.issue_cfg (s : State) (w : CommandWord) : (s.issue w).cfg = s.cfg := rfl
@[simp] theorem State.issue_sb (s : State) (w : CommandWord) : (s.issue w).sb = s.sb := rfl
@[simp] theorem State.issue_banks (s : State) (w : CommandWord) : (s.issue w).banks = s.banks := rfl
@[simp] theorem State.issue_devUsed (s : State) (w : CommandWord) : (s.issue w).devUsed = s.devUsed := rfl
@[simp] theorem State.issue_pinsActive (s : State) (w : CommandWord) : (s.issue w).pinsActive = s.pinsActive := rfl
@[simp] theorem State.issue_tmr (s : State) (w : CommandWord) : (s.issue w).tmr = s.tmr := rfl
@[simp] theorem State.issue_line (s : State) (w : CommandWord) : (s.issue w).line = s.line := rfl
@[simp] theorem State.issue_result (s : State) (w : CommandWord) : (s.issue w).result = s.result := rfl
@[simp] theorem State.issue_trace (s : State) (w : CommandWord) : (s.issue w).trace = s.trace := rfl
@[simp] theorem State.issue_commands (s : State) (w : CommandWord) : (s.issue w).commands = w :: s.commands := rfl
@[simp] theorem State.issue_clock (s : State) (w : CommandWord) : (s.issue w).clock = s.clock := rfl
@[simp] theorem State.issue_lastSample (s : State) (w : CommandWord) : (s.issue w).lastSample = s.lastSample := rfl
@[simp] theorem State.issue_draws (s : State) (w : CommandWord) : (s.issue w).draws = s.draws := rfl

/-! ### construction -/

@[simp] theorem State.fresh_cfg (c : Config) : (State.fresh c).cfg = c := rfl
@[simp] theorem State.fresh_sb (c : Config) : (State.fresh c).sb = [] := rfl
@[simp] theorem State.fresh_banks (c : Config) : (State.fresh c).banks = [] := rfl
@[simp] theorem State.fresh_devUsed (c : Config) : (State.fresh c).devUsed = 0 := rfl
@[simp] theorem State.fresh_pinsActive (c : Config) : (State.fresh c).pinsActive = 0 := rfl
@[simp] theorem State.fresh_tmr (c : Config) : (State.fresh c).tmr = [] := rfl
@[simp] theorem State.fresh_line (c : Config) : (State.fresh c).line = [] := rfl
@[simp] theorem State.fresh_result (c : Config) : (State.fresh c).result = .okUnit := rfl
@[simp] theorem State.fresh_trace (c : Config) : (State.fresh c).trace = [] := rfl
@[simp] theorem State.fresh_commands (c : Config) : (State.fresh c).commands = [] := rfl
@[simp] theorem State.fresh_clock (c : Config) : (State.fresh c).clock = [] := rfl
@[simp] theorem State.fresh_lastSample (c : Config) : (State.fresh c).lastSample = 0 := rfl
@[simp] theorem State.fresh_draws (c : Config) : (State.fresh c).draws = 0 := rfl

theorem State.reset_eq : State.reset = State.fresh Config.atReset := rfl

/-! ### views of a state after an update -/

@[simp] theorem State.setResult_pin (s : State) (r : Result) (p : Nat) : (s.setResult r).pin p = s.pin p := rfl
@[simp] theorem State.setResult_timer (s : State) (r : Result) (j : Nat) : (s.setResult r).timer j = s.timer j := rfl
@[simp] theorem State.setResult_lineImage (s : State) (r : Result) (l : Nat) : (s.setResult r).lineImage l = s.lineImage l := rfl
@[simp] theorem State.setResult_banksUsed (s : State) (r : Result) : (s.setResult r).banksUsed = s.banksUsed := rfl
@[simp] theorem State.setResult_setResult (s : State) (r q : Result) : (s.setResult r).setResult q = s.setResult q := rfl

end Sys2Proof.Machine
end

