-- ==== Sys2Proof/Laws/Table.lean ====
section
/-! SUPPORT. Laws of tables and memory: read after write, other keys untouched, the canonical form kept, and two canonical
tables that read alike are equal. -/
namespace Sys2Proof.Machine

variable {α : Type} {dflt : α}

@[simp] theorem Table.get_nil (key : Nat) : Table.get dflt [] key = dflt := rfl

/-- A key that no entry has reads as the default. -/
theorem Table.get_of_forall_ne {t : List (Nat × α)} {key : Nat} (h : ∀ e ∈ t, e.1 ≠ key) : Table.get dflt t key = dflt := by
  induction t with
  | nil => rfl
  | cons e rest ih =>
    simp only [Table.get, if_neg (Ne.symm (h e (by simp)))]
    exact ih fun x hx => h x (by simp [hx])

/-- A table below all keys of which `key` lies reads the default there. -/
theorem Table.get_of_lt {t : List (Nat × α)} {key : Nat} (h : ∀ e ∈ t, key < e.1) : Table.get dflt t key = dflt :=
  Table.get_of_forall_ne fun e he => Nat.ne_of_gt (h e he)

theorem Table.wf_nil : Table.wf dflt ([] : List (Nat × α)) := ⟨List.Pairwise.nil, by simp⟩

theorem Table.wf_cons {e : Nat × α} {rest : List (Nat × α)} (h : Table.wf dflt (e :: rest)) :
    (∀ x ∈ rest, e.1 < x.1) ∧ e.2 ≠ dflt ∧ Table.wf dflt rest := by
  obtain ⟨hp, hd⟩ := h
  rw [List.pairwise_cons] at hp
  exact ⟨hp.1, hd e (by simp), hp.2, fun x hx => hd x (by simp [hx])⟩

theorem Table.wf_cons_of {e : Nat × α} {rest : List (Nat × α)} (hlt : ∀ x ∈ rest, e.1 < x.1) (hd : e.2 ≠ dflt)
    (h : Table.wf dflt rest) : Table.wf dflt (e :: rest) :=
  ⟨List.pairwise_cons.2 ⟨hlt, h.1⟩, by simpa using ⟨hd, fun a b hab => h.2 (a, b) hab⟩⟩

/-- A listed entry is what its key reads as. -/
theorem Table.get_of_mem {t : List (Nat × α)} (h : Table.wf dflt t) {e : Nat × α} (he : e ∈ t) : Table.get dflt t e.1 = e.2 := by
  induction t with
  | nil => simp at he
  | cons x rest ih =>
    obtain ⟨hlt, -, hr⟩ := Table.wf_cons h
    rcases List.mem_cons.1 he with rfl | he
    · simp [Table.get]
    · have := hlt e he
      simp only [Table.get, if_neg (Nat.ne_of_gt this)]
      exact ih hr he

/-- A key that does not read as the default is listed. -/
theorem Table.mem_of_get_ne {t : List (Nat × α)} {key : Nat} (h : Table.get dflt t key ≠ dflt) :
    (key, Table.get dflt t key) ∈ t := by
  induction t with
  | nil => simp at h
  | cons x rest ih =>
    by_cases hk : key = x.1
    · subst hk; simp [Table.get]
    · simp only [Table.get, if_neg hk] at h ⊢
      exact List.mem_cons_of_mem _ (ih h)

/-- Two canonical tables that read alike at every key are equal. -/
theorem Table.ext_get {t u : List (Nat × α)} (ht : Table.wf dflt t) (hu : Table.wf dflt u)
    (h : ∀ key, Table.get dflt t key = Table.get dflt u key) : t = u := by
  induction t generalizing u with
  | nil =>
    cases u with
    | nil => rfl
    | cons y _ =>
      obtain ⟨-, hd, -⟩ := Table.wf_cons hu
      exact absurd (by simpa [Table.get] using (h y.1).symm) hd
  | cons x rest ih =>
    obtain ⟨hlt, hd, hr⟩ := Table.wf_cons ht
    cases u with
    | nil => exact absurd (by simpa [Table.get] using h x.1) hd
    | cons y rest' =>
      obtain ⟨hlt', hd', hr'⟩ := Table.wf_cons hu
      have hkey : x.1 = y.1 := by
        rcases Nat.lt_trichotomy x.1 y.1 with hxy | hxy | hxy
        · exfalso
          have hx := h x.1
          rw [Table.get, if_pos rfl, Table.get_of_lt] at hx
          · exact hd hx
          · intro e he
            rcases List.mem_cons.1 he with rfl | he
            · exact hxy
            · exact Nat.lt_trans hxy (hlt' e he)
        · exact hxy
        · exfalso
          have hy := h y.1
          rw [Table.get_of_lt, Table.get, if_pos rfl] at hy
          · exact hd' hy.symm
          · intro e he
            rcases List.mem_cons.1 he with rfl | he
            · exact hxy
            · exact Nat.lt_trans hxy (hlt e he)
      have hval : x.2 = y.2 := by
        have := h x.1
        rw [Table.get, if_pos rfl, Table.get, if_pos hkey] at this
        exact this
      have hxy : x = y := Prod.ext hkey hval
      subst hxy
      have htail : ∀ key, Table.get dflt rest key = Table.get dflt rest' key := by
        intro key
        by_cases hk : key = x.1
        · subst hk
          rw [Table.get_of_lt hlt, Table.get_of_lt hlt']
        · have := h key
          rwa [Table.get, if_neg hk, Table.get, if_neg hk] at this
      rw [ih hr hr' htail]

variable [DecidableEq α]

/-- The keys of a table after a write are the old ones and the one written. -/
theorem Table.key_of_mem_put {t : List (Nat × α)} {key : Nat} {v : α} {e : Nat × α} (he : e ∈ Table.put dflt t key v) :
    e ∈ t ∨ e.1 = key := by
  induction t with
  | nil =>
    simp only [Table.put] at he
    split at he <;> simp_all
  | cons x rest ih =>
    simp only [Table.put] at he
    split at he
    · split at he
      · exact .inl he
      · rcases List.mem_cons.1 he with rfl | he
        · exact .inr rfl
        · exact .inl he
    · split at he
      · split at he
        · exact .inl (List.mem_cons_of_mem _ he)
        · rcases List.mem_cons.1 he with rfl | he
          · exact .inr rfl
          · exact .inl (List.mem_cons_of_mem _ he)
      · rcases List.mem_cons.1 he with rfl | he
        · exact .inl (by simp)
        · rcases ih he with h | h
          · exact .inl (List.mem_cons_of_mem _ h)
          · exact .inr h

/-- A write keeps the canonical form. -/
theorem Table.wf_put {t : List (Nat × α)} (h : Table.wf dflt t) (key : Nat) (v : α) : Table.wf dflt (Table.put dflt t key v) := by
  induction t with
  | nil =>
    simp only [Table.put]
    split
    · exact Table.wf_nil
    · exact Table.wf_cons_of (by simp) (by assumption) Table.wf_nil
  | cons x rest ih =>
    obtain ⟨hlt, hd, hr⟩ := Table.wf_cons h
    simp only [Table.put]
    split
    · rename_i hk
      split
      · exact h
      · refine Table.wf_cons_of ?_ (by assumption) h
        intro e he
        rcases List.mem_cons.1 he with rfl | he
        · exact hk
        · exact Nat.lt_trans hk (hlt e he)
    · split
      · rename_i hk
        split
        · exact hr
        · exact Table.wf_cons_of (fun e he => hk ▸ hlt e he) (by assumption) hr
      · rename_i hk1 hk2
        refine Table.wf_cons_of ?_ hd (ih hr)
        intro e he
        rcases Table.key_of_mem_put he with h' | h'
        · exact hlt e h'
        · omega

/-- READ AFTER WRITE: the key written reads as the value, every other key as before. -/
theorem Table.get_put {t : List (Nat × α)} (h : Table.wf dflt t) (key : Nat) (v : α) (j : Nat) :
    Table.get dflt (Table.put dflt t key v) j = if j = key then v else Table.get dflt t j := by
  induction t with
  | nil =>
    simp only [Table.put]
    split
    · rename_i hv; subst hv; simp
    · rfl
  | cons x rest ih =>
    obtain ⟨hlt, hd, hr⟩ := Table.wf_cons h
    simp only [Table.put]
    split
    · rename_i hk
      split
      · rename_i hv
        split
        · rename_i hj
          subst hj hv
          refine Table.get_of_lt fun e he => ?_
          rcases List.mem_cons.1 he with rfl | he
          · exact hk
          · exact Nat.lt_trans hk (hlt e he)
        · rfl
      · rw [Table.get]
    · split
      · rename_i hk
        subst hk
        split
        · rename_i hv
          subst hv
          split
          · rename_i hj; subst hj; exact Table.get_of_lt hlt
          · rename_i hj; rw [Table.get, if_neg hj]
        · simp only [Table.get]
          split <;> rfl
      · rename_i hk1 hk2
        rw [Table.get, ih hr]
        by_cases hj : j = x.1
        · have hne : j ≠ key := by omega
          rw [if_pos hj, if_neg hne, Table.get, if_pos hj]
        · rw [if_neg hj, Table.get, if_neg hj]

/-! ### Memory -/

@[simp] theorem Memory.read_nil (i : Nat) : Memory.read [] i = 0x00#8 := rfl

theorem Memory.wf_write {m : Memory} (h : m.wf) (i : Nat) (v : Byte) : (m.write i v).wf := Table.wf_put h i v

theorem Memory.read_write {m : Memory} (h : m.wf) (i : Nat) (v : Byte) (j : Nat) :
    (m.write i v).read j = if j = i then v else m.read j := Table.get_put h i v j

theorem Memory.ext_read {m n : Memory} (hm : m.wf) (hn : n.wf) (h : ∀ i, m.read i = n.read i) : m = n :=
  Table.ext_get hm hn h

/-- Every listed byte lies below the bound. -/
def Memory.below (m : Memory) (bound : Nat) : Prop := ∀ entry ∈ m, entry.1 < bound

theorem Memory.below_write {m : Memory} {bound i : Nat} (h : m.below bound) (hi : i < bound) (v : Byte) :
    (m.write i v).below bound := by
  intro e he
  rcases Table.key_of_mem_put he with h' | h'
  · exact h e h'
  · omega

theorem Memory.read_of_below {m : Memory} {bound i : Nat} (h : m.below bound) (hi : bound ≤ i) : m.read i = 0x00#8 :=
  Table.get_of_forall_ne fun e he => by have := h e he; omega

end Sys2Proof.Machine
end

