-- ==== Sys2Proof/Laws/Bytes.lean ====
section
/-! SUPPORT. Laws of the bits of a byte, of the pins, and of runs of bytes. -/
namespace Sys2Proof.Machine

/-- Bit `i` of a byte after bit `j` was written. -/
theorem getLsbD_setBit (v : Byte) (j : Nat) (b : Level) (i : Nat) (hj : j < 8) :
    (setBit v j b).getLsbD i = if i = j then b else v.getLsbD i := by
  by_cases hi : i < 8
  · have : ∀ i' < 8, ∀ j' < 8, ∀ b : Bool, ∀ v : BitVec 8,
        (setBit v j' b).getLsbD i' = if i' = j' then b else v.getLsbD i' := by
      intro i' hi' j' hj' b v
      have hsub : (j' ≤ i' ∧ i' - j' = 0) ↔ i' = j' := by omega
      cases b <;> by_cases h : i' = j' <;> simp [setBit, hi', h] <;> omega
    exact this i hi j hj b v
  · have hne : i ≠ j := by omega
    rw [if_neg hne, BitVec.getLsbD_of_ge _ _ (by omega), BitVec.getLsbD_of_ge _ _ (by omega)]

@[simp] theorem getLsbD_fill (level : Level) (i : Nat) (hi : i < 8) : (fill level).getLsbD i = level := by
  have : ∀ b : Bool, ∀ i < 8, (fill b).getLsbD i = b := by decide
  exact this level i hi

theorem getLsbD_complement (v : Byte) (i : Nat) (hi : i < 8) : (~~~v).getLsbD i = !v.getLsbD i := by
  simp [hi]

theorem complement_complement (v : Byte) : ~~~(~~~v) = v := BitVec.not_not

/-- A pin is given by its byte and its bit. -/
theorem pin_inj {p q : Nat} (hb : pinByte p = pinByte q) (hi : pinBit p = pinBit q) : p = q := by
  unfold pinByte pinBit at *; omega

theorem pinBit_lt (p : Nat) : pinBit p < 8 := Nat.mod_lt _ (by decide)

/-- The bit `j` of byte `i` is pin `8*i + j`. -/
theorem State.pin_eq (s : State) (i j : Nat) (hj : j < 8) : s.pin (8 * i + j) = (s.sb.read i).getLsbD j := by
  have h1 : (8 * i + j) / 8 = i := by omega
  have h2 : (8 * i + j) % 8 = j := by omega
  simp [State.pin, pinByte, pinBit, h1, h2]

/-- Two stores whose pins agree hold the same bytes. -/
theorem Memory.read_ext_of_pins {s t : State} (h : ∀ p, s.pin p = t.pin p) (i : Nat) : s.sb.read i = t.sb.read i := by
  apply BitVec.eq_of_getLsbD_eq
  intro j hj
  have := h (8 * i + j)
  rwa [State.pin_eq s i j hj, State.pin_eq t i j hj] at this

/-- Writing a pin writes that pin and no other. -/
theorem State.pin_setPin {s : State} (h : s.sb.wf) (p : Nat) (level : Level) (q : Nat) :
    (s.setPin p level).pin q = if q = p then level else s.pin q := by
  simp only [State.pin, State.setPin_sb, Memory.read_write h]
  by_cases hb : pinByte q = pinByte p
  · rw [if_pos hb, getLsbD_setBit _ _ _ _ (pinBit_lt p)]
    by_cases hq : q = p
    · simp [hq]
    · have : pinBit q ≠ pinBit p := fun hi => hq (pin_inj hb hi)
      rw [if_neg this, if_neg hq, hb]
  · have hq : q ≠ p := fun h => hb (by rw [h])
    rw [if_neg hb, if_neg hq]

/-! ### Runs of bytes -/

variable {f : Byte → Byte}

theorem Memory.mapRun_succ (m : Memory) (first n : Nat) :
    m.mapRun f first (n + 1) = (m.mapRun f first n).write (first + n) (f ((m.mapRun f first n).read (first + n))) := by
  simp [Memory.mapRun, List.range_succ, List.foldl_append]

theorem Memory.wf_mapRun {m : Memory} (h : m.wf) (first n : Nat) : (m.mapRun f first n).wf := by
  induction n with
  | zero => exact h
  | succ n ih => rw [Memory.mapRun_succ]; exact Memory.wf_write ih _ _

/-- A run maps exactly its own bytes, each from its old value. -/
theorem Memory.read_mapRun {m : Memory} (h : m.wf) (first n i : Nat) :
    (m.mapRun f first n).read i = if first ≤ i ∧ i < first + n then f (m.read i) else m.read i := by
  induction n generalizing i with
  | zero => rw [if_neg (by omega)]; rfl
  | succ n ih =>
    rw [Memory.mapRun_succ, Memory.read_write (Memory.wf_mapRun h _ _), ih, ih]
    by_cases hi : i = first + n
    · rw [if_pos hi, if_neg (by omega), if_pos (by omega), hi]
    · rw [if_neg hi]
      by_cases hr : first ≤ i ∧ i < first + n
      · rw [if_pos hr, if_pos (by omega)]
      · rw [if_neg hr, if_neg (by omega)]

theorem Memory.below_mapRun {m : Memory} {bound first n : Nat} (h : m.below bound) (hn : first + n ≤ bound) :
    (m.mapRun f first n).below bound := by
  induction n with
  | zero => exact h
  | succ n ih => rw [Memory.mapRun_succ]; exact Memory.below_write (ih (by omega)) (by omega) _

end Sys2Proof.Machine
end

