-- ==== Sys2Proof/Laws/Banks.lean ====
section
/-! SUPPORT. Laws of the bank table: what the tiling of R26 says of one bank, of two, and of a range. -/
namespace Sys2Proof.Machine

@[simp] theorem totalDevices_nil : totalDevices [] = 0 := rfl
@[simp] theorem totalDevices_cons (b : Bank) (bs : List Bank) : totalDevices (b :: bs) = b.count + totalDevices bs := by
  simp [totalDevices]
@[simp] theorem totalDevices_append (bs cs : List Bank) : totalDevices (bs ++ cs) = totalDevices bs + totalDevices cs := by
  simp [totalDevices]

theorem totalDevices_take_drop (bs : List Bank) (n : Nat) :
    totalDevices (bs.take n) + totalDevices (bs.drop n) = totalDevices bs := by
  rw [← totalDevices_append, List.take_append_drop]

/-- Appending a descriptor that starts where the others end keeps the tiling. -/
theorem banksTile_append (dev : Nat) (bs cs : List Bank) :
    banksTile dev (bs ++ cs) ↔ banksTile dev bs ∧ banksTile (dev + totalDevices bs) cs := by
  induction bs generalizing dev with
  | nil => simp [banksTile]
  | cons b rest ih => simp [banksTile, ih, and_assoc, Nat.add_assoc]

theorem banksTile_drop {dev : Nat} {bs : List Bank} (h : banksTile dev bs) (n : Nat) :
    banksTile (dev + totalDevices (bs.take n)) (bs.drop n) := by
  have := (banksTile_append dev (bs.take n) (bs.drop n)).1 (by rwa [List.take_append_drop])
  exact this.2

theorem banksTile_take {dev : Nat} {bs : List Bank} (h : banksTile dev bs) (n : Nat) : banksTile dev (bs.take n) := by
  have := (banksTile_append dev (bs.take n) (bs.drop n)).1 (by rwa [List.take_append_drop])
  exact this.1

/-- A tiling has no more banks than devices. -/
theorem banksTile_length {dev : Nat} {bs : List Bank} (h : banksTile dev bs) : bs.length ≤ totalDevices bs := by
  induction bs generalizing dev with
  | nil => simp
  | cons b rest ih =>
    have := ih h.2.2.2
    have := h.1
    simp; omega

/-- What the tiling says of bank `k` (R26): where it starts and ends, and that it lies within the devices used. -/
theorem banksTile_bank {dev : Nat} {bs : List Bank} (h : banksTile dev bs) {k : Nat} {b : Bank} (hk : bs[k]? = some b) :
    1 ≤ b.count ∧ b.low = 8 * (dev + totalDevices (bs.take k)) ∧ b.high + 1 = b.low + 8 * b.count ∧
      totalDevices (bs.take k) + b.count ≤ totalDevices bs := by
  induction bs generalizing dev k with
  | nil => simp at hk
  | cons x rest ih =>
    obtain ⟨hc, hl, hh, hr⟩ := h
    cases k with
    | zero =>
      simp at hk; subst hk
      simp; omega
    | succ k =>
      simp only [List.getElem?_cons_succ] at hk
      obtain ⟨h1, h2, h3, h4⟩ := ih hr hk
      simp only [List.take_succ_cons, totalDevices_cons]
      exact ⟨h1, by omega, h3, by omega⟩

/-- A later bank starts beyond an earlier one. -/
theorem banksTile_order {dev : Nat} {bs : List Bank} (h : banksTile dev bs) {j k : Nat} {b c : Bank} (hjk : j < k)
    (hj : bs[j]? = some b) (hk : bs[k]? = some c) : b.high < c.low := by
  induction bs generalizing dev j k with
  | nil => simp at hj
  | cons x rest ih =>
    obtain ⟨hc, hl, hh, hr⟩ := h
    cases k with
    | zero => omega
    | succ k =>
      simp only [List.getElem?_cons_succ] at hk
      cases j with
      | zero =>
        simp at hj; subst hj
        have := (banksTile_bank hr hk).2.1
        omega
      | succ j =>
        simp only [List.getElem?_cons_succ] at hj
        exact ih hr (by omega) hj hk

/-- The next bank starts right after this one. -/
theorem banksTile_next {dev : Nat} {bs : List Bank} (h : banksTile dev bs) {k : Nat} {b c : Bank}
    (hk : bs[k]? = some b) (hk' : bs[k + 1]? = some c) : c.low = b.high + 1 := by
  obtain ⟨-, hl, hh, -⟩ := banksTile_bank h hk
  obtain ⟨-, hl', -, -⟩ := banksTile_bank h hk'
  have : bs.take (k + 1) = bs.take k ++ [b] := by
    rw [List.take_add_one, hk]; rfl
  rw [this] at hl'
  simp at hl'
  omega

/-- The first byte and the extent of a run of consecutive banks. -/
theorem banksTile_range {dev : Nat} {bs : List Bank} (h : banksTile dev bs) :
    ∀ b ∈ bs, b.base + b.count ≤ dev + totalDevices bs ∧ dev ≤ b.base := by
  intro b hb
  obtain ⟨k, hk, rfl⟩ := List.mem_iff_getElem.1 hb
  obtain ⟨h1, h2, h3, h4⟩ := banksTile_bank h (List.getElem?_eq_getElem hk)
  simp only [Bank.base, h2]
  omega

variable {f : Byte → Byte}

theorem Memory.wf_mapBanks {m : Memory} (h : m.wf) (bs : List Bank) : (m.mapBanks f bs).wf := by
  induction bs generalizing m with
  | nil => exact h
  | cons b rest ih => exact ih (Memory.wf_mapRun h _ _)

/-- The bytes of consecutive banks are one run, each mapped once (R65). -/
theorem Memory.read_mapBanks {m : Memory} (hm : m.wf) {dev : Nat} {bs : List Bank} (h : banksTile dev bs) (i : Nat) :
    (m.mapBanks f bs).read i = if dev ≤ i ∧ i < dev + totalDevices bs then f (m.read i) else m.read i := by
  induction bs generalizing m dev with
  | nil => rw [if_neg (by simp only [totalDevices_nil]; omega)]; rfl
  | cons b rest ih =>
    obtain ⟨hc, hl, hh, hr⟩ := h
    have hbase : b.base = dev := by simp only [Bank.base, hl]; omega
    show (Memory.mapBanks f (m.mapRun f b.base b.count) rest).read i = _
    rw [ih (Memory.wf_mapRun hm _ _) hr, Memory.read_mapRun hm, hbase, totalDevices_cons]
    by_cases h1 : dev + b.count ≤ i ∧ i < dev + b.count + totalDevices rest
    · rw [if_pos h1, if_neg (by omega), if_pos (by omega)]
    · rw [if_neg h1]
      by_cases h2 : dev ≤ i ∧ i < dev + b.count
      · rw [if_pos h2, if_pos (by omega)]
      · rw [if_neg h2, if_neg (by omega)]

theorem Memory.below_mapBanks {m : Memory} {bound : Nat} (hm : m.below bound) {bs : List Bank}
    (h : ∀ b ∈ bs, b.base + b.count ≤ bound) : (m.mapBanks f bs).below bound := by
  induction bs generalizing m with
  | nil => exact hm
  | cons b rest ih => exact ih (Memory.below_mapRun hm (h b (by simp))) fun c hc => h c (by simp [hc])

/-- The banks of a valid range: they tile the devices from the first one's base to the last one's end. -/
theorem State.Inv.range {s : State} (hi : s.Inv) {first last : Nat} (hv : s.rangeValid first last = true) {bf bl : Bank}
    (hf : s.banks[first]? = some bf) (hl : s.banks[last]? = some bl) :
    banksTile bf.base (s.bankRange first last) ∧ 8 * bf.base = bf.low ∧
      8 * (bf.base + totalDevices (s.bankRange first last)) = bl.high + 1 := by
  simp only [State.rangeValid, Bool.and_eq_true, decide_eq_true_eq] at hv
  obtain ⟨h1, h2, h3, h4⟩ := banksTile_bank hi.tile hf
  obtain ⟨g1, g2, g3, g4⟩ := banksTile_bank hi.tile hl
  have hbase : bf.base = totalDevices (s.banks.take first) := by simp only [Bank.base, h2]; omega
  have htile : banksTile bf.base (s.bankRange first last) := by
    have := banksTile_take (banksTile_drop hi.tile first) (last + 1 - first)
    rwa [Nat.zero_add, ← hbase] at this
  refine ⟨htile, by omega, ?_⟩
  have hsum : totalDevices (s.banks.take first) + totalDevices (s.bankRange first last) = totalDevices (s.banks.take (last + 1)) := by
    have : s.banks.take (last + 1) = s.banks.take first ++ s.bankRange first last := by
      have h := (List.take_add (l := s.banks) (i := first) (j := last + 1 - first))
      rwa [show first + (last + 1 - first) = last + 1 by omega] at h
    rw [this, totalDevices_append]
  have hlast : totalDevices (s.banks.take (last + 1)) = totalDevices (s.banks.take last) + bl.count := by
    rw [List.take_add_one, hl]; simp
  rw [hbase]
  omega

end Sys2Proof.Machine
end

