-- ==== Sys2Proof/Laws/Ops.lean ====
section
/-! SUPPORT. One lemma per shared operation that says everything it can do, and one for when it goes on. Proofs cite these
and do not unfold the operations. -/
namespace Sys2Proof.Machine

/-! ### Ends of a command -/

@[simp] theorem State.succeed_eq (s : State) (v : Nat) : s.succeed v = .next (s.setResult (.okVal v)) := rfl
@[simp] theorem State.done_eq (s : State) : s.done = .next (s.setResult .okUnit) := rfl
@[simp] theorem State.fail_eq (s : State) (k : FailKind) : s.fail k = .next (s.setResult (.err k)) := rfl

/-! ### Guards: everything each can answer -/

variable {s t : State}

theorem State.withBytes_next {first n : Nat} {go : Host.Outcome State Fault Refusal} (h : s.withBytes first n go = .next t) :
    first + n ≤ s.cfg.nDev ∧ go = .next t := by
  unfold State.withBytes State.hasBytes at h
  split at h
  · exact ⟨by simp_all, h⟩
  · cases h

theorem State.withPin_next {p : Nat} {go : Host.Outcome State Fault Refusal} (h : s.withPin p go = .next t) :
    (s.pinsActive ≤ p ∧ t = s.setResult (.err .ePin)) ∨ (p < s.pinsActive ∧ pinByte p < s.cfg.nDev ∧ go = .next t) := by
  unfold State.withPin at h
  split at h
  · exact .inl ⟨‹_›, by simpa using h.symm⟩
  · obtain ⟨h1, h2⟩ := State.withBytes_next h
    exact .inr ⟨by omega, by omega, h2⟩

theorem State.withBank_next {k : Nat} {go : Bank → Host.Outcome State Fault Refusal} (h : s.withBank k go = .next t) :
    (s.banksUsed ≤ k ∧ t = s.setResult (.err .eBank)) ∨ ∃ b, s.banks[k]? = some b ∧ go b = .next t := by
  unfold State.withBank at h
  split at h
  · exact .inl ⟨List.getElem?_eq_none_iff.1 ‹_›, by simpa using h.symm⟩
  · exact .inr ⟨_, ‹_›, h⟩

theorem State.withDevice_next {k d : Nat} {go : Nat → Host.Outcome State Fault Refusal} (h : s.withDevice k d go = .next t) :
    (s.banksUsed ≤ k ∧ t = s.setResult (.err .eBank)) ∨
    ∃ b, s.banks[k]? = some b ∧
      ((b.count ≤ d ∧ t = s.setResult (.err .eDevice)) ∨
       (d < b.count ∧ b.deviceByte d < s.cfg.nDev ∧ go (b.deviceByte d) = .next t)) := by
  obtain h | ⟨b, hb, h⟩ := State.withBank_next h
  · exact .inl h
  · refine .inr ⟨b, hb, ?_⟩
    split at h
    · exact .inl ⟨‹_›, by simpa using h.symm⟩
    · obtain ⟨h1, h2⟩ := State.withBytes_next h
      exact .inr ⟨by omega, by omega, h2⟩

theorem State.withRange_next {first last : Nat} {go : List Bank → Host.Outcome State Fault Refusal}
    (h : s.withRange first last go = .next t) :
    (s.rangeValid first last = false ∧ t = s.setResult .okUnit) ∨
    (s.rangeValid first last = true ∧ (∀ b ∈ s.bankRange first last, b.base + b.count ≤ s.cfg.nDev) ∧
      go (s.bankRange first last) = .next t) := by
  unfold State.withRange at h
  split at h
  · split at h
    · rename_i hv hb
      exact .inr ⟨hv, by simpa [State.hasBytes] using hb, h⟩
    · cases h
  · exact .inl ⟨by simp_all, by simpa using h.symm⟩

/-- One clock sample: it is not below the newest one; the next presented sample is taken if there is one. -/
theorem State.sampleClock_some {now : Instant} (h : s.sampleClock = some (now, t)) :
    s.lastSample ≤ now ∧ (∀ n ∈ s.clock.head?, now = n) ∧
      t = { s with clock := s.clock.tail, lastSample := now, draws := t.draws } ∧ s.draws ≤ t.draws := by
  unfold State.sampleClock at h
  split at h
  · rename_i n later hc
    split at h
    · simp only [Option.some.injEq, Prod.mk.injEq] at h
      obtain ⟨rfl, rfl⟩ := h
      exact ⟨‹_›, by simp [hc], by simp [hc], Nat.le_refl _⟩
    · cases h
  · rename_i hc
    simp only [Option.some.injEq, Prod.mk.injEq] at h
    obtain ⟨hnow, rfl⟩ := h
    refine ⟨?_, by simp [hc], by simp [hc, hnow], Nat.le_succ _⟩
    rw [← hnow]
    split
    · assumption
    · exact BitVec.le_refl _

theorem State.sampleClock_none : s.sampleClock = none ↔ ¬ s.ClockOk := by
  unfold State.sampleClock State.ClockOk
  split <;> rename_i hc <;> simp [hc]

theorem State.withSample_next {go : Instant → State → Host.Outcome State Fault Refusal} (h : s.withSample go = .next t) :
    ∃ now u, s.sampleClock = some (now, u) ∧ go now u = .next t := by
  unfold State.withSample at h
  split at h
  · cases h
  · exact ⟨_, _, ‹_›, h⟩

/-! ### Guards: when each goes on -/

theorem State.withBytes_of {first n : Nat} {go : Host.Outcome State Fault Refusal} (h : first + n ≤ s.cfg.nDev) :
    s.withBytes first n go = go := by simp [State.withBytes, State.hasBytes, h]

theorem State.withBank_none {k : Nat} {go : Bank → Host.Outcome State Fault Refusal} (h : s.banksUsed ≤ k) :
    s.withBank k go = .next (s.setResult (.err .eBank)) := by
  have : s.banks[k]? = none := List.getElem?_eq_none_iff.2 h
  simp [State.withBank, this]

theorem State.withBank_some {k : Nat} {b : Bank} {go : Bank → Host.Outcome State Fault Refusal} (h : s.banks[k]? = some b) :
    s.withBank k go = go b := by simp [State.withBank, h]

theorem State.withPin_inactive {p : Nat} {go : Host.Outcome State Fault Refusal} (h : s.pinsActive ≤ p) :
    s.withPin p go = .next (s.setResult (.err .ePin)) := by simp [State.withPin, h]

theorem State.Inv.withPin {p : Nat} {go : Host.Outcome State Fault Refusal} (hi : s.Inv) (h : p < s.pinsActive) :
    s.withPin p go = go := by
  have h1 := hi.pinsTotal
  have h2 := hi.devBound
  rw [State.withPin, if_neg (by omega), State.withBytes_of (by simp only [pinByte]; omega)]

theorem State.Inv.bank_bytes (hi : s.Inv) {k : Nat} {b : Bank} (h : s.banks[k]? = some b) : b.base + b.count ≤ s.cfg.nDev := by
  have h1 := (banksTile_range hi.tile b (List.mem_of_getElem? h)).1
  have h2 := hi.devTotal
  have h3 := hi.devBound
  omega

theorem State.Inv.withDevice {k d : Nat} {b : Bank} {go : Nat → Host.Outcome State Fault Refusal} (hi : s.Inv)
    (h : s.banks[k]? = some b) (hd : d < b.count) : s.withDevice k d go = go (b.deviceByte d) := by
  have := hi.bank_bytes h
  rw [State.withDevice, State.withBank_some h, if_neg (by omega), State.withBytes_of (by simp only [Bank.deviceByte]; omega)]

theorem State.withDevice_beyond {k d : Nat} {b : Bank} {go : Nat → Host.Outcome State Fault Refusal}
    (h : s.banks[k]? = some b) (hd : b.count ≤ d) : s.withDevice k d go = .next (s.setResult (.err .eDevice)) := by
  rw [State.withDevice, State.withBank_some h, if_pos hd]; rfl

theorem State.rangeValid_iff {first last : Nat} : s.rangeValid first last = true ↔ first ≤ last ∧ last < s.banksUsed := by
  simp [State.rangeValid]

theorem State.withRange_invalid {first last : Nat} {go : List Bank → Host.Outcome State Fault Refusal}
    (h : ¬ (first ≤ last ∧ last < s.banksUsed)) : s.withRange first last go = .next (s.setResult .okUnit) := by
  rw [State.withRange, if_neg (by rw [State.rangeValid_iff]; exact h)]; rfl

theorem State.mem_bankRange {first last : Nat} {b : Bank} (h : b ∈ s.bankRange first last) : b ∈ s.banks :=
  List.mem_of_mem_drop (List.mem_of_mem_take h)

theorem State.Inv.withRange {first last : Nat} {go : List Bank → Host.Outcome State Fault Refusal} (hi : s.Inv)
    (h : first ≤ last) (hl : last < s.banksUsed) : s.withRange first last go = go (s.bankRange first last) := by
  rw [State.withRange, if_pos (State.rangeValid_iff.2 ⟨h, hl⟩), if_pos]
  rw [List.all_eq_true]
  intro b hb
  obtain ⟨k, hk⟩ := List.mem_iff_getElem?.1 (State.mem_bankRange hb)
  simpa [State.hasBytes] using hi.bank_bytes hk

theorem State.withSample_of {now : Instant} {u : State} {go : Instant → State → Host.Outcome State Fault Refusal}
    (h : s.sampleClock = some (now, u)) : s.withSample go = go now u := by simp [State.withSample, h]

theorem State.withSample_refused {go : Instant → State → Host.Outcome State Fault Refusal} (h : ¬ s.ClockOk) :
    s.withSample go = .refused .clockWentBackwards := by simp [State.withSample, State.sampleClock_none.2 h]

theorem State.ClockOk.sample (h : s.ClockOk) : ∃ now u, s.sampleClock = some (now, u) := by
  cases hs : s.sampleClock with
  | none => exact absurd h (State.sampleClock_none.1 hs)
  | some x => exact ⟨x.1, x.2, rfl⟩

/-! ### Lines -/

/-- An event changes the image of its own line and of no other (R33). -/
theorem get_applyEvent {lines : List (Nat × LineImage)} (h : Table.wf LineImage.untouched lines) (e : LineEvent) (l : Nat) :
    Table.get LineImage.untouched (applyEvent lines e) l =
      if l = e.line then e.apply (Table.get LineImage.untouched lines e.line) else Table.get LineImage.untouched lines l :=
  Table.get_put h _ _ _

theorem wf_applyEvent {lines : List (Nat × LineImage)} (h : Table.wf LineImage.untouched lines) (e : LineEvent) :
    Table.wf LineImage.untouched (applyEvent lines e) := Table.wf_put h _ _

theorem wf_applyEvents {lines : List (Nat × LineImage)} (h : Table.wf LineImage.untouched lines) (es : List LineEvent) :
    Table.wf LineImage.untouched (es.foldl applyEvent lines) := by
  induction es generalizing lines with
  | nil => exact h
  | cons e rest ih => exact ih (wf_applyEvent h e)

/-- Events about other lines leave a line as it was. -/
theorem get_applyEvents_other {lines : List (Nat × LineImage)} (h : Table.wf LineImage.untouched lines) {es : List LineEvent}
    {l : Nat} (hl : ∀ e ∈ es, e.line ≠ l) :
    Table.get LineImage.untouched (es.foldl applyEvent lines) l = Table.get LineImage.untouched lines l := by
  induction es generalizing lines with
  | nil => rfl
  | cons e rest ih =>
    rw [List.foldl_cons, ih (wf_applyEvent h e) fun x hx => hl x (by simp [hx]), get_applyEvent h,
      if_neg (Ne.symm (hl e (by simp)))]

/-! ### The host's command port -/

theorem State.fetch_some {w : CommandWord} (h : s.fetch = some (w, t)) :
    ∃ later, s.commands = w :: later ∧ t = { s with commands := later } := by
  unfold State.fetch at h
  split at h
  · cases h
  · simp only [Option.some.injEq, Prod.mk.injEq] at h
    obtain ⟨rfl, rfl⟩ := h
    exact ⟨_, ‹_›, rfl⟩

theorem State.fetch_none : s.fetch = none ↔ s.commands = [] := by
  unfold State.fetch
  split <;> rename_i hc <;> simp [hc]

/-- Everything a step can do: a command was issued, and it was legal and ran, or illegal and failed (R96). -/
theorem step_next (h : step s = .next t) :
    ∃ w later, s.commands = w :: later ∧
      ((∃ i, decode w = .ok i ∧ exec i { s with commands := later } = .next t) ∨
       (∃ e, decode w = .error e ∧ t = State.setResult { s with commands := later } (.err .eIllegal))) := by
  unfold step at h
  split at h
  · cases h
  · rename_i w u hf
    obtain ⟨later, hc, rfl⟩ := State.fetch_some hf
    refine ⟨w, later, hc, ?_⟩
    split at h
    · exact .inl ⟨_, ‹_›, h⟩
    · exact .inr ⟨_, ‹_›, by simpa using h.symm⟩

end Sys2Proof.Machine
end

