-- ==== Sys2Proof/Laws/Completes.lean ====
section
/-! SUPPORT. Under the invariant every guard completes: it goes on, or it ends the command with its failure or as a no-op. -/
namespace Sys2Proof.Machine

variable {s : State}

theorem State.bank_or_none (s : State) (k : Nat) : s.banksUsed ≤ k ∨ ∃ b, s.banks[k]? = some b := by
  by_cases h : s.banksUsed ≤ k
  · exact .inl h
  · exact .inr ⟨_, List.getElem?_eq_getElem (by simpa [State.banksUsed] using h)⟩

theorem State.Inv.withPin_completes (h : s.Inv) (p : Nat) {t : State} : ∃ u, s.withPin p (.next t) = .next u := by
  by_cases hp : p < s.pinsActive
  · exact ⟨_, h.withPin hp⟩
  · exact ⟨_, State.withPin_inactive (by omega)⟩

theorem State.withBank_completes {k : Nat} {go : Bank → Host.Outcome State Fault Refusal}
    (hg : ∀ b, s.banks[k]? = some b → ∃ u, go b = .next u) : ∃ u, s.withBank k go = .next u := by
  rcases s.bank_or_none k with h | ⟨b, h⟩
  · exact ⟨_, State.withBank_none h⟩
  · rw [State.withBank_some h]; exact hg b h

theorem State.Inv.withDevice_completes (h : s.Inv) (k d : Nat) {go : Nat → Host.Outcome State Fault Refusal}
    (hg : ∀ i, ∃ u, go i = .next u) : ∃ u, s.withDevice k d go = .next u := by
  rcases s.bank_or_none k with hk | ⟨b, hk⟩
  · exact ⟨_, State.withBank_none hk⟩
  · by_cases hd : d < b.count
    · rw [h.withDevice hk hd]; exact hg _
    · exact ⟨_, State.withDevice_beyond hk (by omega)⟩

theorem State.Inv.withRange_completes (h : s.Inv) (first last : Nat) {go : List Bank → Host.Outcome State Fault Refusal}
    (hg : ∀ bs, ∃ u, go bs = .next u) : ∃ u, s.withRange first last go = .next u := by
  by_cases hv : first ≤ last ∧ last < s.banksUsed
  · rw [h.withRange hv.1 hv.2]; exact hg _
  · exact ⟨_, State.withRange_invalid hv⟩

end Sys2Proof.Machine
end

