-- ==== Sys2Proof/Laws/Exec.lean ====
section
/-! SUPPORT. Everything a command can do, said once: `exec_effect` sorts every next state of every command into seven
effects, and every rule about all commands is read off them. -/
namespace Sys2Proof.Machine

/-- The next states of a command. -/
inductive Effect (s : State) : Instr → State → Prop where
  /-- only `RESULT` is written: reads, queries, failures, silent no-ops -/
  | result (i : Instr) (r : Result) (hr : s.Inv → r.wf) : Effect s i (s.setResult r)
  /-- status bytes are written, within the store and in canonical form, and the command succeeds -/
  | store (i : Instr) (m : Memory) (r : Result) (hi : i.writesStore = true) (hwf : s.sb.wf → m.wf)
      (hb : s.sb.below s.cfg.nDev → m.below s.cfg.nDev) (hr : s.Inv → r.wf) (hok : r.ok = true) :
      Effect s i (State.setResult { s with sb := m } r)
  /-- a bank is created -/
  | create (data clock latch count : Nat) (hc : 1 ≤ count) (hcap : s.devUsed + count ≤ s.cfg.nDev) :
      Effect s (.createBank data clock latch count)
        (((s.emit (createEvents data clock latch)).allocate (s.newBank data clock latch count)).setResult (.okVal s.banksUsed))
  /-- a transfer writes lines of allocated banks -/
  | transfer (i : Instr) (es : List LineEvent) (hi : i.isTransfer = true)
      (hes : ∀ e ∈ es, ∃ b ∈ s.banks, ∃ l v, e = .wr l v ∧ (l = b.data ∨ l = b.clock ∨ l = b.latch)) :
      Effect s i ((s.emit es).setResult .okUnit)
  /-- a slot starts to count from a clock sample -/
  | start (slot : Nat) (now : Instant) (u : State) (hs : slot < s.cfg.nTmr) (hu : s.sampleClock = some (now, u)) :
      Effect s (.startTimer slot) ((u.setTimer slot (.counting now)).setResult .okUnit)
  /-- a slot is stopped -/
  | stop (slot : Nat) (hs : slot < s.cfg.nTmr) : Effect s (.stopTimer slot) ((s.setTimer slot .idle).setResult .okUnit)
  /-- a counting slot has elapsed and is consumed -/
  | elapsed (slot duration : Nat) (first now : Instant) (u : State) (hs : slot < s.cfg.nTmr) (ht : s.timer slot = .counting first)
      (hu : s.sampleClock = some (now, u)) (hd : duration ≤ now.toNat - first.toNat) :
      Effect s (.isElapsed slot duration) ((u.setTimer slot .idle).setResult (.okVal 1))
  /-- a counting slot has not elapsed and counts on -/
  | pending (slot duration : Nat) (first now : Instant) (u : State) (hs : slot < s.cfg.nTmr) (ht : s.timer slot = .counting first)
      (hu : s.sampleClock = some (now, u)) (hd : now.toNat - first.toNat < duration) :
      Effect s (.isElapsed slot duration) (u.setResult (.okVal 0))

variable {s t : State}

theorem levelNat_le (v : Level) : levelNat v ≤ 1 := by cases v <;> simp [levelNat]

theorem State.Inv.pins_le (hi : s.Inv) : s.pinsActive ≤ 2040 := by
  have h1 := hi.pinsTotal
  have h2 := hi.devBound
  have h3 := hi.cfgOk
  simp only [Config.wf, Bool.and_eq_true, decide_eq_true_eq] at h3
  omega

theorem State.Inv.banksUsed_le (hi : s.Inv) : s.banksUsed ≤ s.devUsed := by
  have := banksTile_length hi.tile
  have := hi.devTotal
  simp only [State.banksUsed]; omega

theorem State.Inv.count_le (hi : s.Inv) {k : Nat} {b : Bank} (h : s.banks[k]? = some b) : b.count * 8 ≤ 2040 := by
  have h1 := (banksTile_bank hi.tile h).2.2.2
  have h2 := hi.devTotal
  have h3 := hi.pinsTotal
  have h4 := hi.pins_le
  omega

/-- A scan that succeeds names a bank of the list that contains the pin. -/
theorem scanBanks_some {p k n : Nat} {bs : List Bank} (h : scanBanks p bs n = some k) :
    n ≤ k ∧ ∃ b, bs[k - n]? = some b ∧ b.hasPin p = true := by
  induction bs generalizing n with
  | nil => simp [scanBanks] at h
  | cons b rest ih =>
    simp only [scanBanks] at h
    split at h
    · simp only [Option.some.injEq] at h; subst h; simp [*]
    · obtain ⟨h1, c, h2, h3⟩ := ih h
      refine ⟨by omega, c, ?_, h3⟩
      rw [show k - n = (k - (n + 1)) + 1 by omega]
      simpa using h2

/-- A scan fails exactly when no bank of the list contains the pin. -/
theorem scanBanks_none {p n : Nat} {bs : List Bank} : scanBanks p bs n = none ↔ ∀ b ∈ bs, b.hasPin p = false := by
  induction bs generalizing n with
  | nil => simp [scanBanks]
  | cons b rest ih =>
    simp only [scanBanks]
    split <;> simp_all

theorem setPin_effect (i : Instr) (hi : i.writesStore = true) {p : Nat} {level : Level} {r : Result} (hp : pinByte p < s.cfg.nDev)
    (hr : s.Inv → r.wf) (hok : r.ok = true) : Effect s i ((s.setPin p level).setResult r) :=
  .store i (s.setPin p level).sb r hi (fun h => Memory.wf_write h _ _) (fun h => Memory.below_write h hp _) hr hok

theorem setArrayPin_effect (i : Instr) (hi : i.writesStore = true) {p : Nat} {level : Level} (h : s.setArrayPin p level = .next t) :
    Effect s i t := by
  obtain ⟨-, rfl⟩ | ⟨hp, hb, h⟩ := State.withPin_next h
  · exact .result i _ fun _ => trivial
  · obtain rfl := Host.Outcome.next.inj h
    exact setPin_effect i hi hb (fun hs => by have := hs.pins_le; simp only [Result.wf]; omega) rfl

theorem invertArrayPin_effect (i : Instr) (hi : i.writesStore = true) {p : Nat} (h : s.invertArrayPin p = .next t) :
    Effect s i t := by
  obtain ⟨-, rfl⟩ | ⟨hp, hb, h⟩ := State.withPin_next h
  · exact .result i _ fun _ => trivial
  · obtain rfl := Host.Outcome.next.inj h
    exact setPin_effect i hi hb (fun _ => by have := levelNat_le (!s.pin p); simp only [Result.wf]; omega) rfl

theorem readArrayPin_effect (i : Instr) {p : Nat} (h : s.readArrayPin p = .next t) : Effect s i t := by
  obtain ⟨-, rfl⟩ | ⟨hp, hb, h⟩ := State.withPin_next h
  · exact .result i _ fun _ => trivial
  · obtain rfl := Host.Outcome.next.inj h
    exact .result i _ fun _ => by have := levelNat_le (s.pin p); simp only [Result.wf]; omega

theorem mapBankRange_effect (i : Instr) (hi : i.writesStore = true) {first last : Nat} {f : Byte → Byte}
    (h : s.mapBankRange first last f = .next t) : Effect s i t := by
  obtain ⟨-, rfl⟩ | ⟨hv, hb, h⟩ := State.withRange_next h
  · exact .result i _ fun _ => trivial
  · obtain rfl := Host.Outcome.next.inj h
    exact .store i _ .okUnit hi (fun h => Memory.wf_mapBanks h _) (fun h => Memory.below_mapBanks h hb) (fun _ => trivial) rfl

/-- Every event of a frame writes one of the bank's three lines. -/
theorem frame_lines {m : Memory} {b : Bank} {order : BitOrder} {e : LineEvent} (h : e ∈ frame m b order) :
    ∃ l v, e = .wr l v ∧ (l = b.data ∨ l = b.clock ∨ l = b.latch) := by
  simp only [frame, List.cons_append, List.mem_cons, List.mem_append, List.mem_flatMap, shiftByte, emitBit, List.not_mem_nil,
    or_false] at h
  obtain rfl | ⟨d, -, j, -, rfl | rfl | rfl⟩ | rfl := h <;> exact ⟨_, _, rfl, by simp⟩

theorem transfer_effect (i : Instr) (hi : i.isTransfer = true) {first last : Nat} {order : BitOrder}
    (h : s.transfer first last order = .next t) : Effect s i t := by
  obtain ⟨-, rfl⟩ | ⟨hv, hb, h⟩ := State.withRange_next h
  · exact .result i _ fun _ => trivial
  · obtain rfl := Host.Outcome.next.inj h
    refine .transfer i _ hi fun e he => ?_
    obtain ⟨b, hb', he⟩ := List.mem_flatMap.1 he
    exact ⟨b, State.mem_bankRange hb', frame_lines he⟩

theorem mapAllBytes_effect (i : Instr) (hi : i.writesStore = true) (f : Byte → Byte) :
    Effect s i ((s.mapAllBytes f).setResult .okUnit) :=
  .store i (s.sb.mapRun f 0 s.cfg.nDev) .okUnit hi (fun h => Memory.wf_mapRun h _ _) (fun h => Memory.below_mapRun h (by omega))
    (fun _ => trivial) rfl

/-- EVERYTHING A COMMAND CAN DO when it answers a next state. -/
theorem exec_effect {i : Instr} (h : exec i s = .next t) : Effect s i t := by
  cases i with
  | createBank data clock latch count =>
    simp only [exec, execCreateBank] at h
    split at h
    · obtain rfl := Host.Outcome.next.inj h
      exact .result _ _ fun _ => trivial
    · obtain rfl := Host.Outcome.next.inj h
      exact .create data clock latch count (by omega) (by omega)
  | setArrayPin p level => exact setArrayPin_effect _ rfl h
  | invertArrayPin p => exact invertArrayPin_effect _ rfl h
  | readArrayPin p => exact readArrayPin_effect _ h
  | getBankFromPin p =>
    simp only [exec, execGetBankFromPin] at h
    split at h
    · rename_i k hk
      obtain rfl := Host.Outcome.next.inj h
      refine .result _ _ fun hi => ?_
      obtain ⟨-, b, hb, -⟩ := scanBanks_some hk
      have h1 := hi.banksUsed_le
      have h2 := hi.pinsTotal
      have h3 := hi.pins_le
      have h4 := (List.getElem?_eq_some_iff.1 hb).1
      simp only [State.banksUsed] at h1
      simp only [Result.wf]; omega
    · obtain rfl := Host.Outcome.next.inj h
      exact .result _ _ fun _ => trivial
  | numPinsInBank k =>
    obtain ⟨-, rfl⟩ | ⟨b, hb, h⟩ := State.withBank_next h
    · exact .result _ _ fun _ => trivial
    · obtain rfl := Host.Outcome.next.inj h
      exact .result _ _ fun hi => by have := hi.count_le hb; simp only [Result.wf]; omega
  | setBankPin k r level =>
    obtain ⟨-, rfl⟩ | ⟨b, hb, h⟩ := State.withBank_next h
    · exact .result _ _ fun _ => trivial
    · exact setArrayPin_effect _ rfl h
  | invertBankPin k r =>
    obtain ⟨-, rfl⟩ | ⟨b, hb, h⟩ := State.withBank_next h
    · exact .result _ _ fun _ => trivial
    · exact invertArrayPin_effect _ rfl h
  | readBankPin k r =>
    obtain ⟨-, rfl⟩ | ⟨b, hb, h⟩ := State.withBank_next h
    · exact .result _ _ fun _ => trivial
    · exact readArrayPin_effect _ h
  | setBank k level => exact mapBankRange_effect _ rfl h
  | invertBank k => exact mapBankRange_effect _ rfl h
  | setBanks first last level => exact mapBankRange_effect _ rfl h
  | invertBanks first last => exact mapBankRange_effect _ rfl h
  | setBankSipo k d value =>
    simp only [exec, execSetBankSipo] at h
    obtain ⟨-, rfl⟩ | ⟨b, hb, ⟨-, rfl⟩ | ⟨hd, hn, h⟩⟩ := State.withDevice_next h
    · exact .result _ _ fun _ => trivial
    · exact .result _ _ fun _ => trivial
    · obtain rfl := Host.Outcome.next.inj h
      exact .store _ _ _ rfl (fun h => Memory.wf_write h _ _) (fun h => Memory.below_write h hn _)
        (fun _ => by have := value.isLt; simp only [Result.wf]; omega) rfl
  | invertBankSipo k d =>
    simp only [exec, execInvertBankSipo] at h
    obtain ⟨-, rfl⟩ | ⟨b, hb, ⟨-, rfl⟩ | ⟨hd, hn, h⟩⟩ := State.withDevice_next h
    · exact .result _ _ fun _ => trivial
    · exact .result _ _ fun _ => trivial
    · obtain rfl := Host.Outcome.next.inj h
      exact .store _ _ _ rfl (fun h => Memory.wf_write h _ _) (fun h => Memory.below_write h hn _)
        (fun _ => by have := (~~~(s.sb.read (b.deviceByte d))).isLt; simp only [Result.wf]; omega) rfl
  | readBankSipo k d =>
    simp only [exec, execReadBankSipo] at h
    obtain ⟨-, rfl⟩ | ⟨b, hb, ⟨-, rfl⟩ | ⟨hd, hn, h⟩⟩ := State.withDevice_next h
    · exact .result _ _ fun _ => trivial
    · exact .result _ _ fun _ => trivial
    · obtain rfl := Host.Outcome.next.inj h
      exact .result _ _ fun _ => by have := (s.sb.read (b.deviceByte d)).isLt; simp only [Result.wf]; omega
  | setAllArrayPins level =>
    obtain rfl := Host.Outcome.next.inj h
    exact mapAllBytes_effect (.setAllArrayPins level) rfl _
  | invertAllArrayPins =>
    obtain rfl := Host.Outcome.next.inj h
    exact mapAllBytes_effect .invertAllArrayPins rfl _
  | xferBanks first last order => exact transfer_effect _ rfl h
  | xferBank k order => exact transfer_effect _ rfl h
  | xferArray order =>
    simp only [exec, execXferArray] at h
    split at h
    · obtain rfl := Host.Outcome.next.inj h
      exact .result _ _ fun _ => trivial
    · exact transfer_effect _ rfl h
  | startTimer slot =>
    simp only [exec, execStartTimer] at h
    split at h
    · obtain rfl := Host.Outcome.next.inj h
      exact .result _ _ fun _ => trivial
    · obtain ⟨now, u, hu, h⟩ := State.withSample_next h
      obtain rfl := Host.Outcome.next.inj h
      exact .start slot now u (by omega) hu
  | stopTimer slot =>
    simp only [exec, execStopTimer] at h
    split at h
    · obtain rfl := Host.Outcome.next.inj h
      exact .result _ _ fun _ => trivial
    · obtain rfl := Host.Outcome.next.inj h
      exact .stop slot (by omega)
  | isElapsed slot duration =>
    simp only [exec, execIsElapsed] at h
    split at h
    · obtain rfl := Host.Outcome.next.inj h
      exact .result _ _ fun _ => by simp [Result.wf]
    · split at h
      · obtain rfl := Host.Outcome.next.inj h
        exact .result _ _ fun _ => by simp [Result.wf]
      · rename_i start hstart
        obtain ⟨now, u, hu, h⟩ := State.withSample_next h
        split at h
        · obtain rfl := Host.Outcome.next.inj h
          exact .elapsed slot duration start now u (by omega) hstart hu ‹_›
        · obtain rfl := Host.Outcome.next.inj h
          exact .pending slot duration start now u (by omega) hstart hu (by omega)

end Sys2Proof.Machine
end

