-- ==== Sys2Proof/Laws/Invariant.lean ====
section
/-! SUPPORT. The invariant of Safety.lean, kept by each shared operation. -/
namespace Sys2Proof.Machine

variable {s t : State}

theorem State.Inv.setResult (h : s.Inv) {r : Result} (hr : r.wf) : (s.setResult r).Inv := { h with resultOk := hr }

/-- Another store in canonical form, within the same bounds. -/
theorem State.Inv.withStore (h : s.Inv) {m : Memory} (hwf : m.wf) (hb : m.below s.cfg.nDev) : State.Inv { s with sb := m } :=
  { h with sbOk := hwf, sbBound := hb }

/-- The commands that wait are no part of the invariant. -/
theorem State.Inv.withCommands (h : s.Inv) (ws : List CommandWord) : State.Inv { s with commands := ws } := { h with }

theorem State.Inv.emit (h : s.Inv) {es : List LineEvent} (he : ∀ e ∈ es, e.line < Config.lineBound) : (s.emit es).Inv :=
  { h with
    traceLines := by
      intro e hm
      simp only [State.emit_trace, List.mem_append] at hm
      exact hm.elim (h.traceLines e) (he e)
    lineOk := wf_applyEvents h.lineOk es
    lineReplay := by simp only [State.emit_line, State.emit_trace, List.foldl_append, ← h.lineReplay] }

theorem State.Inv.sample {now : Instant} (h : s.Inv) (hu : s.sampleClock = some (now, t)) :
    t.Inv ∧ t.lastSample = now ∧ t.cfg = s.cfg := by
  obtain ⟨h1, h2, h3, h4⟩ := State.sampleClock_some hu
  rw [h3]
  exact ⟨{ h with tmrStarted := fun slot st hs => BitVec.le_trans (h.tmrStarted slot st hs) h1 }, rfl, rfl⟩

/-- A slot set to idle, or to count from an instant not later than the newest sample. -/
theorem State.Inv.setTimer (h : s.Inv) {slot : Nat} (hs : slot < s.cfg.nTmr) {x : Timer}
    (hx : ∀ st, x = .counting st → st ≤ s.lastSample) : (s.setTimer slot x).Inv :=
  { h with
    tmrOk := Table.wf_put h.tmrOk _ _
    tmrBound := by
      intro e he
      rcases Table.key_of_mem_put he with he | he
      · exact h.tmrBound e he
      · rw [he]; exact hs
    tmrStarted := by
      intro j st hj
      unfold State.timer at hj
      rw [State.setTimer_tmr, Table.get_put h.tmrOk] at hj
      split at hj
      · exact hx st hj
      · exact h.tmrStarted j st hj }

/-- One slot written, every other slot as before. -/
theorem State.Inv.timer_setTimer (h : s.Inv) (slot : Nat) (x : Timer) (j : Nat) :
    (s.setTimer slot x).timer j = if j = slot then x else s.timer j := Table.get_put h.tmrOk slot x j

/-- A clock sample changes the environment's fields and no other. -/
theorem State.sampleClock_rest {now : Instant} (hu : s.sampleClock = some (now, t)) :
    t = { s with clock := t.clock, lastSample := t.lastSample, draws := t.draws } := by
  obtain ⟨h1, h2, h3, h4⟩ := State.sampleClock_some hu
  conv => lhs; rw [h3]
  conv => rhs; rw [h3]

end Sys2Proof.Machine
end

