-- ==== Sys2Proof/Laws/WellFormed.lean ====
section
/-! SUPPORT. The width checks as inequalities, and the bits that encode a level and an order. -/
namespace Sys2Proof

theorem lineOk_iff (l : Nat) : lineOk l = true ↔ l < 256 := decide_eq_true_iff
theorem indexOk_iff (k : Nat) : indexOk k = true ↔ k < 256 := decide_eq_true_iff
theorem pinOk_iff (p : Nat) : pinOk p = true ↔ p < 65536 := decide_eq_true_iff
theorem durationOk_iff (t : Nat) : durationOk t = true ↔ t < 4294967296 := decide_eq_true_iff

theorem bitOfLevel_lt (v : Level) : bitOfLevel v < 2 := by cases v <;> decide
theorem bitOfOrder_lt (o : BitOrder) : bitOfOrder o < 2 := by cases o <;> decide
@[simp] theorem levelOfBit_bitOfLevel (v : Level) : levelOfBit (bitOfLevel v) = v := by cases v <;> rfl
@[simp] theorem orderOfBit_bitOfOrder (o : BitOrder) : orderOfBit (bitOfOrder o) = o := by cases o <;> rfl

/-- Fields that fit their widths come back from the word (R93). -/
theorem fieldsOf_wordOf {f : Fields} (hop : f.op < 2 ^ 8) (ha : f.a < 2 ^ 8) (hb : f.b < 2 ^ 8) (hc : f.c < 2 ^ 8)
    (hd : f.d < 2 ^ 32) : fieldsOf (wordOf f) = f := by
  obtain ⟨op, a, b, c, d⟩ := f
  simp only [fieldsOf, wordOf, BitVec.toNat_ofNat] at *
  rw [Nat.mod_eq_of_lt (by omega)]
  congr 1 <;> omega

/-- The fields of a word fit their widths and give the word back (R93). -/
theorem wordOf_fieldsOf (w : CommandWord) : wordOf (fieldsOf w) = w := by
  have := w.isLt
  apply BitVec.eq_of_toNat_eq
  simp only [fieldsOf, wordOf, BitVec.toNat_ofNat]
  omega

end Sys2Proof
end

