-- ==== Sys2Proof/Laws/PerInstr.lean ====
section
/-! SUPPORT. Statements made per instruction. OpcodeHome: the opcode field of a command's encoding is the value of R94, and
every field of its encoding fits its width when the command is well-formed. -/
namespace Sys2Proof.Laws

/-- The opcode of a command (R94). -/
def opcodeOf : Instr → Nat
  | .createBank _ _ _ _ => 0x01
  | .setArrayPin _ _ => 0x10
  | .invertArrayPin _ => 0x11
  | .readArrayPin _ => 0x12
  | .getBankFromPin _ => 0x13
  | .numPinsInBank _ => 0x14
  | .setBankPin _ _ _ => 0x20
  | .invertBankPin _ _ => 0x21
  | .readBankPin _ _ => 0x22
  | .setBank _ _ => 0x30
  | .invertBank _ => 0x31
  | .setBanks _ _ _ => 0x32
  | .invertBanks _ _ => 0x33
  | .setBankSipo _ _ _ => 0x40
  | .invertBankSipo _ _ => 0x41
  | .readBankSipo _ _ => 0x42
  | .setAllArrayPins _ => 0x50
  | .invertAllArrayPins => 0x51
  | .xferBanks _ _ _ => 0x60
  | .xferBank _ _ => 0x61
  | .xferArray _ => 0x62
  | .startTimer _ => 0x70
  | .stopTimer _ => 0x71
  | .isElapsed _ _ => 0x72

/-- The fields of a well-formed command fit their widths, and the opcode is the table's. -/
def OpcodeHome.Statement (i : Instr) : Prop :=
  i.wf = true → (encodeFields i).op = opcodeOf i ∧ (encodeFields i).a < 2 ^ 8 ∧ (encodeFields i).b < 2 ^ 8 ∧
    (encodeFields i).c < 2 ^ 8 ∧ (encodeFields i).d < 2 ^ 32

theorem OpcodeHome.createBank (data clock latch count : Nat) : OpcodeHome.Statement (.createBank data clock latch count) := by
  intro h
  simp only [Instr.wf, Bool.and_eq_true, indexOk_iff, lineOk_iff] at h
  refine ⟨rfl, ?_, ?_, ?_, ?_⟩ <;> simp only [encodeFields] <;> omega

theorem OpcodeHome.setArrayPin (p : Nat) (level : Level) : OpcodeHome.Statement (.setArrayPin p level) := by
  intro h
  have hb := bitOfLevel_lt level
  simp only [Instr.wf, pinOk_iff] at h
  refine ⟨rfl, ?_, ?_, ?_, ?_⟩ <;> simp only [encodeFields] <;> omega

theorem OpcodeHome.invertArrayPin (p : Nat) : OpcodeHome.Statement (.invertArrayPin p) := by
  intro h
  simp only [Instr.wf, pinOk_iff] at h
  refine ⟨rfl, ?_, ?_, ?_, ?_⟩ <;> simp only [encodeFields] <;> omega

theorem OpcodeHome.readArrayPin (p : Nat) : OpcodeHome.Statement (.readArrayPin p) := by
  intro h
  simp only [Instr.wf, pinOk_iff] at h
  refine ⟨rfl, ?_, ?_, ?_, ?_⟩ <;> simp only [encodeFields] <;> omega

theorem OpcodeHome.getBankFromPin (p : Nat) : OpcodeHome.Statement (.getBankFromPin p) := by
  intro h
  simp only [Instr.wf, pinOk_iff] at h
  refine ⟨rfl, ?_, ?_, ?_, ?_⟩ <;> simp only [encodeFields] <;> omega

theorem OpcodeHome.numPinsInBank (k : Nat) : OpcodeHome.Statement (.numPinsInBank k) := by
  intro h
  simp only [Instr.wf, indexOk_iff] at h
  refine ⟨rfl, ?_, ?_, ?_, ?_⟩ <;> simp only [encodeFields] <;> omega

theorem OpcodeHome.setBankPin (k r : Nat) (level : Level) : OpcodeHome.Statement (.setBankPin k r level) := by
  intro h
  have hb := bitOfLevel_lt level
  simp only [Instr.wf, Bool.and_eq_true, indexOk_iff, pinOk_iff] at h
  refine ⟨rfl, ?_, ?_, ?_, ?_⟩ <;> simp only [encodeFields] <;> omega

theorem OpcodeHome.invertBankPin (k r : Nat) : OpcodeHome.Statement (.invertBankPin k r) := by
  intro h
  simp only [Instr.wf, Bool.and_eq_true, indexOk_iff, pinOk_iff] at h
  refine ⟨rfl, ?_, ?_, ?_, ?_⟩ <;> simp only [encodeFields] <;> omega

theorem OpcodeHome.readBankPin (k r : Nat) : OpcodeHome.Statement (.readBankPin k r) := by
  intro h
  simp only [Instr.wf, Bool.and_eq_true, indexOk_iff, pinOk_iff] at h
  refine ⟨rfl, ?_, ?_, ?_, ?_⟩ <;> simp only [encodeFields] <;> omega

theorem OpcodeHome.setBank (k : Nat) (level : Level) : OpcodeHome.Statement (.setBank k level) := by
  intro h
  have hb := bitOfLevel_lt level
  simp only [Instr.wf, indexOk_iff] at h
  refine ⟨rfl, ?_, ?_, ?_, ?_⟩ <;> simp only [encodeFields] <;> omega

theorem OpcodeHome.invertBank (k : Nat) : OpcodeHome.Statement (.invertBank k) := by
  intro h
  simp only [Instr.wf, indexOk_iff] at h
  refine ⟨rfl, ?_, ?_, ?_, ?_⟩ <;> simp only [encodeFields] <;> omega

theorem OpcodeHome.setBanks (first last : Nat) (level : Level) : OpcodeHome.Statement (.setBanks first last level) := by
  intro h
  have hb := bitOfLevel_lt level
  simp only [Instr.wf, Bool.and_eq_true, indexOk_iff] at h
  refine ⟨rfl, ?_, ?_, ?_, ?_⟩ <;> simp only [encodeFields] <;> omega

theorem OpcodeHome.invertBanks (first last : Nat) : OpcodeHome.Statement (.invertBanks first last) := by
  intro h
  simp only [Instr.wf, Bool.and_eq_true, indexOk_iff] at h
  refine ⟨rfl, ?_, ?_, ?_, ?_⟩ <;> simp only [encodeFields] <;> omega

theorem OpcodeHome.setBankSipo (k d : Nat) (value : Byte) : OpcodeHome.Statement (.setBankSipo k d value) := by
  intro h
  have hb := value.isLt
  simp only [Instr.wf, Bool.and_eq_true, indexOk_iff] at h
  refine ⟨rfl, ?_, ?_, ?_, ?_⟩ <;> simp only [encodeFields] <;> omega

theorem OpcodeHome.invertBankSipo (k d : Nat) : OpcodeHome.Statement (.invertBankSipo k d) := by
  intro h
  simp only [Instr.wf, Bool.and_eq_true, indexOk_iff] at h
  refine ⟨rfl, ?_, ?_, ?_, ?_⟩ <;> simp only [encodeFields] <;> omega

theorem OpcodeHome.readBankSipo (k d : Nat) : OpcodeHome.Statement (.readBankSipo k d) := by
  intro h
  simp only [Instr.wf, Bool.and_eq_true, indexOk_iff] at h
  refine ⟨rfl, ?_, ?_, ?_, ?_⟩ <;> simp only [encodeFields] <;> omega

theorem OpcodeHome.setAllArrayPins (level : Level) : OpcodeHome.Statement (.setAllArrayPins level) := by
  intro h
  have hb := bitOfLevel_lt level
  refine ⟨rfl, ?_, ?_, ?_, ?_⟩ <;> simp only [encodeFields] <;> omega

theorem OpcodeHome.invertAllArrayPins : OpcodeHome.Statement (.invertAllArrayPins) := by
  intro h
  refine ⟨rfl, ?_, ?_, ?_, ?_⟩ <;> simp only [encodeFields] <;> omega

theorem OpcodeHome.xferBanks (first last : Nat) (order : BitOrder) : OpcodeHome.Statement (.xferBanks first last order) := by
  intro h
  have hb := bitOfOrder_lt order
  simp only [Instr.wf, Bool.and_eq_true, indexOk_iff] at h
  refine ⟨rfl, ?_, ?_, ?_, ?_⟩ <;> simp only [encodeFields] <;> omega

theorem OpcodeHome.xferBank (k : Nat) (order : BitOrder) : OpcodeHome.Statement (.xferBank k order) := by
  intro h
  have hb := bitOfOrder_lt order
  simp only [Instr.wf, indexOk_iff] at h
  refine ⟨rfl, ?_, ?_, ?_, ?_⟩ <;> simp only [encodeFields] <;> omega

theorem OpcodeHome.xferArray (order : BitOrder) : OpcodeHome.Statement (.xferArray order) := by
  intro h
  have hb := bitOfOrder_lt order
  refine ⟨rfl, ?_, ?_, ?_, ?_⟩ <;> simp only [encodeFields] <;> omega

theorem OpcodeHome.startTimer (slot : Nat) : OpcodeHome.Statement (.startTimer slot) := by
  intro h
  simp only [Instr.wf, indexOk_iff] at h
  refine ⟨rfl, ?_, ?_, ?_, ?_⟩ <;> simp only [encodeFields] <;> omega

theorem OpcodeHome.stopTimer (slot : Nat) : OpcodeHome.Statement (.stopTimer slot) := by
  intro h
  simp only [Instr.wf, indexOk_iff] at h
  refine ⟨rfl, ?_, ?_, ?_, ?_⟩ <;> simp only [encodeFields] <;> omega

theorem OpcodeHome.isElapsed (slot duration : Nat) : OpcodeHome.Statement (.isElapsed slot duration) := by
  intro h
  simp only [Instr.wf, Bool.and_eq_true, durationOk_iff, indexOk_iff] at h
  refine ⟨rfl, ?_, ?_, ?_, ?_⟩ <;> simp only [encodeFields] <;> omega

end Sys2Proof.Laws
end

