-- ==== Sys2Proof/Laws/Pins.lean ====
section
/-! SUPPORT. Bytes and banks seen as pins: every active pin is in a bank, and a run of bytes put through a byte function is
a run of pins put through a level function. -/
namespace Sys2Proof.Machine

variable {s t : State}

theorem levelNat_eq (v : Level) : levelNat v = if v = true then 1 else 0 := rfl

theorem getLsbD_fill_of (level : Level) (_v : Byte) (i : Nat) (hi : i < 8) : (fill level).getLsbD i = level := getLsbD_fill level i hi

/-- Every pin of a tiled run is in one of its banks. -/
theorem banksTile_cover {dev : Nat} {bs : List Bank} (h : banksTile dev bs) {p : Nat} (h1 : 8 * dev ≤ p)
    (h2 : p < 8 * (dev + totalDevices bs)) : ∃ b ∈ bs, b.hasPin p = true := by
  induction bs generalizing dev with
  | nil => simp at h2; omega
  | cons b rest ih =>
    obtain ⟨a1, a2, a3, a4⟩ := h
    by_cases hb : p < 8 * (dev + b.count)
    · exact ⟨b, by simp, by simp [Bank.hasPin]; omega⟩
    · obtain ⟨c, hc, hp⟩ := ih a4 (by omega) (by simp at h2; omega)
      exact ⟨c, by simp [hc], hp⟩

/-- The pins of a bank are active. -/
theorem State.Inv.high_active (h : s.Inv) {k : Nat} {b : Bank} (hb : s.banks[k]? = some b) : b.high < s.pinsActive := by
  have h1 := banksTile_bank h.tile hb
  have h2 := h.devTotal
  have h3 := h.pinsTotal
  omega

/-- A store whose bytes `lo .. lo + n - 1` went through `f`, seen as pins. -/
theorem State.pin_of_bytes {m : Memory} {lo n : Nat} {f : Byte → Byte} {g : Level → Level}
    (hfg : ∀ v i, i < 8 → (f v).getLsbD i = g (v.getLsbD i))
    (h : ∀ i, m.read i = if lo ≤ i ∧ i < lo + n then f (s.sb.read i) else s.sb.read i) (q : Nat) :
    State.pin { s with sb := m } q = if 8 * lo ≤ q ∧ q < 8 * (lo + n) then g (s.pin q) else s.pin q := by
  simp only [State.pin, h]
  have : (lo ≤ pinByte q ∧ pinByte q < lo + n) ↔ (8 * lo ≤ q ∧ q < 8 * (lo + n)) := by simp only [pinByte]; omega
  by_cases hc : lo ≤ pinByte q ∧ pinByte q < lo + n
  · rw [if_pos hc, if_pos (this.1 hc), hfg _ _ (pinBit_lt q)]
  · rw [if_neg hc, if_neg (fun h => hc (this.2 h))]

/-- The bytes of a valid bank range through `f` are the range's pins through `g`, and no other pin. -/
theorem State.Inv.pin_mapBanks (h : s.Inv) {first last : Nat} {bf bl : Bank} (hle : first ≤ last)
    (hf : s.banks[first]? = some bf) (hl : s.banks[last]? = some bl) {f : Byte → Byte} {g : Level → Level}
    (hfg : ∀ v i, i < 8 → (f v).getLsbD i = g (v.getLsbD i)) (q : Nat) :
    State.pin { s with sb := s.sb.mapBanks f (s.bankRange first last) } q =
      if bf.low ≤ q ∧ q ≤ bl.high then g (s.pin q) else s.pin q := by
  have hlt : last < s.banksUsed := (List.getElem?_eq_some_iff.1 hl).1
  obtain ⟨h1, h2, h3⟩ := h.range (State.rangeValid_iff.2 ⟨hle, hlt⟩) hf hl
  refine (State.pin_of_bytes hfg (Memory.read_mapBanks h.sbOk h1 (f := f)) q).trans ?_
  congr 1
  apply propext; omega

/-- Two sound states whose pins agree hold the same store. -/
theorem State.Inv.sb_ext (hs : s.Inv) (ht : t.Inv) (h : ∀ p, s.pin p = t.pin p) : s.sb = t.sb :=
  Memory.ext_read hs.sbOk ht.sbOk fun i => Memory.read_ext_of_pins h i

/-- Writing the same value twice is writing it once. -/
theorem Table.put_put {α : Type} [DecidableEq α] {d : α} {m : List (Nat × α)} (h : Table.wf d m) (k : Nat) (v : α) :
    Table.put d (Table.put d m k v) k v = Table.put d m k v := by
  refine Table.ext_get (Table.wf_put (Table.wf_put h _ _) _ _) (Table.wf_put h _ _) fun j => ?_
  rw [Table.get_put (Table.wf_put h _ _), Table.get_put h]
  by_cases hj : j = k <;> simp [hj]

end Sys2Proof.Machine
end

