-- ==== Sys2Proof/Laws/Transfer.lean ====
section
/-! SUPPORT. Transfers: a frame as a list of pins, the banks of a range, and the level a list of events leaves on a line. -/
namespace Sys2Proof.Machine

variable {s : State}

/-- Devices in order, bits in order: the pins in order. -/
theorem flatMap_range_mul (n : Nat) :
    (List.range n).flatMap (fun d => (List.range 8).map (fun j => 8 * d + j)) = List.range (8 * n) := by
  induction n with
  | zero => rfl
  | succ n ih =>
    rw [List.range_succ (n := n), List.flatMap_append, ih, Nat.mul_add, List.range_add]
    simp [List.flatMap_cons]

/-- Counting down from the end is counting up, reversed. -/
theorem map_range_down (n h : Nat) :
    (List.range n).map (fun t => h + n - 1 - t) = ((List.range n).map (fun t => h + t)).reverse := by
  apply List.ext_getElem
  · simp
  · intro i h1 h2
    simp only [List.length_map, List.length_range] at h1
    simp; omega

/-- Bit `j` of device `d` of a bank that starts on a byte is its pin `8*d + j`. -/
theorem State.pin_device {b : Bank} (h : b.low = 8 * b.base) (d j : Nat) (hj : j < 8) :
    (s.sb.read (b.deviceByte d)).getLsbD j = s.pin (b.low + (8 * d + j)) := by
  have e : b.low + (8 * d + j) = 8 * (b.deviceByte d) + j := by simp only [Bank.deviceByte]; omega
  rw [e, State.pin_eq s _ _ hj]

/-- The inside of an LSB-first frame: the pins from `low` up (R174). -/
theorem frame_pins_lsbFirst {b : Bank} (h : b.low = 8 * b.base) :
    (BitOrder.walk .lsbFirst b.count).flatMap (fun d => shiftByte b (s.sb.read (b.deviceByte d)) .lsbFirst) =
      ((List.range (8 * b.count)).map (fun t => b.low + t)).flatMap (fun p => emitBit b (s.pin p)) := by
  simp only [BitOrder.walk, shiftByte, ← flatMap_range_mul, List.map_flatMap, List.flatMap_assoc, List.map_map]
  congr 1; funext d
  rw [List.flatMap_map]
  refine List.flatMap_congr fun j hj => ?_
  rw [State.pin_device h d j (by simpa using hj)]; rfl

/-- The inside of an MSB-first frame: the same pins from `high` down (R174). -/
theorem frame_pins_msbFirst {b : Bank} (h : b.low = 8 * b.base) :
    (BitOrder.walk .msbFirst b.count).flatMap (fun d => shiftByte b (s.sb.read (b.deviceByte d)) .msbFirst) =
      ((List.range (8 * b.count)).map (fun t => b.low + t)).reverse.flatMap (fun p => emitBit b (s.pin p)) := by
  simp only [BitOrder.walk, shiftByte]
  rw [← flatMap_range_mul, List.map_flatMap, List.reverse_flatMap, List.flatMap_assoc]
  congr 1; funext d
  simp only [Function.comp, List.map_map]
  rw [← List.map_reverse, List.flatMap_map]
  refine List.flatMap_congr fun j hj => ?_
  rw [State.pin_device h d j (by simpa using hj)]; rfl

/-- The range of one bank. -/
theorem State.bankRange_single {k : Nat} {b : Bank} (hb : s.banks[k]? = some b) : s.bankRange k k = [b] := by
  obtain ⟨hlt, hk⟩ := List.getElem?_eq_some_iff.1 hb
  have e : s.banks.drop k = b :: s.banks.drop (k + 1) := by rw [List.drop_eq_getElem_cons hlt, hk]
  rw [State.bankRange, show k + 1 - k = 1 by omega, e]; rfl

/-- The range of all banks. -/
theorem State.bankRange_all : s.bankRange 0 (s.banksUsed - 1) = s.banks := by
  simp only [State.bankRange, List.drop_zero]
  exact List.take_of_length_le (by simp only [State.banksUsed] at *; omega)

/-- A valid transfer emits the frames of its range and nothing else (R170, R172). -/
theorem State.Inv.transfer_next (h : s.Inv) {first last : Nat} (order : BitOrder) (hle : first ≤ last) (hlt : last < s.banksUsed) :
    s.transfer first last order =
      .next ((s.emit ((s.bankRange first last).flatMap fun b => frame s.sb b order)).setResult .okUnit) := by
  rw [State.transfer, h.withRange hle hlt]; rfl

/-- One more event, seen from one line. -/
theorem get_applyEvents_concat {lines : List (Nat × LineImage)} (h : Table.wf LineImage.untouched lines) (es : List LineEvent)
    (e : LineEvent) (l : Nat) :
    Table.get LineImage.untouched ((es ++ [e]).foldl applyEvent lines) l =
      if l = e.line then e.apply (Table.get LineImage.untouched (es.foldl applyEvent lines) e.line)
      else Table.get LineImage.untouched (es.foldl applyEvent lines) l := by
  rw [List.foldl_append, List.foldl_cons, List.foldl_nil, get_applyEvent (wf_applyEvents h _)]

/-- Writes configure no line. -/
theorem dir_of_writes {lines : List (Nat × LineImage)} (h : Table.wf LineImage.untouched lines) {es : List LineEvent} (l : Nat)
    (hes : ∀ e ∈ es, ∃ l v, e = .wr l v) :
    (Table.get LineImage.untouched (es.foldl applyEvent lines) l).dir = (Table.get LineImage.untouched lines l).dir := by
  induction es generalizing lines with
  | nil => rfl
  | cons e rest ih =>
    rw [List.foldl_cons, ih (wf_applyEvent h _) (fun x hx => hes x (by simp [hx])), get_applyEvent h]
    obtain ⟨l', v, rfl⟩ := hes e (by simp)
    split
    · rename_i hl; subst hl; rfl
    · rfl

end Sys2Proof.Machine
end

