-- ==== Sys2Proof/Tests/Slice0.lean ====
section
/-! SUPPORT. The model's own tests: ill-formed operands refused, command words of spec/95_test_vectors.md decoded, one step
of every command against the rows of spec/95_test_vectors.md and spec/96_test_programs.md, and a witness for the
hypotheses of every statement of Certificates/Slice0/Obligations.lean. -/
namespace Sys2Proof.Tests

open Sys2Proof Sys2Proof.Machine Sys2Proof.Statements

/-! ### WellFormed: each check refuses an operand one above its width (R8) -/

theorem test_wf_line_data : (Instr.createBank 256 0 0 1).wf = false := by decide
theorem test_wf_line_clock : (Instr.createBank 0 256 0 1).wf = false := by decide
theorem test_wf_line_latch : (Instr.createBank 0 0 256 1).wf = false := by decide
theorem test_wf_count : (Instr.createBank 0 0 0 256).wf = false := by decide
theorem test_wf_pin : (Instr.setArrayPin 65536 true).wf = false ∧ (Instr.invertArrayPin 65536).wf = false ∧
    (Instr.readArrayPin 65536).wf = false ∧ (Instr.getBankFromPin 65536).wf = false := by decide
theorem test_wf_bank : (Instr.numPinsInBank 256).wf = false ∧ (Instr.setBankPin 256 0 true).wf = false ∧
    (Instr.invertBankPin 256 0).wf = false ∧ (Instr.readBankPin 256 0).wf = false ∧ (Instr.setBank 256 true).wf = false ∧
    (Instr.invertBank 256).wf = false ∧ (Instr.xferBank 256 .msbFirst).wf = false := by decide
theorem test_wf_bank_pin : (Instr.setBankPin 0 65536 true).wf = false ∧ (Instr.invertBankPin 0 65536).wf = false ∧
    (Instr.readBankPin 0 65536).wf = false := by decide
theorem test_wf_range : (Instr.setBanks 256 0 true).wf = false ∧ (Instr.setBanks 0 256 true).wf = false ∧
    (Instr.invertBanks 256 0).wf = false ∧ (Instr.invertBanks 0 256).wf = false ∧
    (Instr.xferBanks 256 0 .msbFirst).wf = false ∧ (Instr.xferBanks 0 256 .msbFirst).wf = false := by decide
theorem test_wf_device : (Instr.setBankSipo 256 0 0).wf = false ∧ (Instr.setBankSipo 0 256 0).wf = false ∧
    (Instr.invertBankSipo 256 0).wf = false ∧ (Instr.invertBankSipo 0 256).wf = false ∧
    (Instr.readBankSipo 256 0).wf = false ∧ (Instr.readBankSipo 0 256).wf = false := by decide
theorem test_wf_timer : (Instr.startTimer 256).wf = false ∧ (Instr.stopTimer 256).wf = false ∧
    (Instr.isElapsed 256 0).wf = false ∧ (Instr.isElapsed 0 4294967296).wf = false := by decide
theorem test_wf_widest : (Instr.createBank 255 255 255 255).wf = true ∧ (Instr.setBankPin 255 65535 true).wf = true ∧
    (Instr.isElapsed 255 4294967295).wf = true ∧ (Instr.setBankSipo 255 255 0xFF#8).wf = true := by decide
theorem test_cfg_wf : Config.wf ⟨1, 0⟩ = true ∧ Config.wf ⟨0, 0⟩ = false ∧ Config.wf ⟨256, 0⟩ = false ∧ Config.wf ⟨1, 256⟩ = false := by
  decide

/-! ### Decoding: the words of spec/95_test_vectors.md, `op a b c d` of R93 and R94 -/

theorem test_decode_create : decodeTableWord 64 0x0100FF0700000002 = some (.createBank 0 255 7 2) := by decide
theorem test_decode_pins : decodeTableWord 64 0x100000010000FFFF = some (.setArrayPin 65535 true) ∧
    decodeTableWord 64 0x1000000000000008 = some (.setArrayPin 8 false) ∧
    decodeTableWord 64 0x1100000000000010 = some (.invertArrayPin 16) ∧
    decodeTableWord 64 0x1200000000000017 = some (.readArrayPin 23) ∧
    decodeTableWord 64 0x130000000000000F = some (.getBankFromPin 15) ∧
    decodeTableWord 64 0x1401000000000000 = some (.numPinsInBank 1) := by decide
theorem test_decode_bank_pins : decodeTableWord 64 0x2001000100000007 = some (.setBankPin 1 7 true) ∧
    decodeTableWord 64 0x2100000000000010 = some (.invertBankPin 0 16) ∧
    decodeTableWord 64 0x2202000000000018 = some (.readBankPin 2 24) := by decide
theorem test_decode_banks : decodeTableWord 64 0x3001000100000000 = some (.setBank 1 true) ∧
    decodeTableWord 64 0x3102000000000000 = some (.invertBank 2) ∧
    decodeTableWord 64 0x3201000100000000 = some (.setBanks 1 0 true) ∧
    decodeTableWord 64 0x3301020000000000 = some (.invertBanks 1 2) := by decide
theorem test_decode_devices : decodeTableWord 64 0x4000015500000000 = some (.setBankSipo 0 1 0x55#8) ∧
    decodeTableWord 64 0x4101010000000000 = some (.invertBankSipo 1 1) ∧
    decodeTableWord 64 0x4200020000000000 = some (.readBankSipo 0 2) := by decide
theorem test_decode_array : decodeTableWord 64 0x5000000100000000 = some (.setAllArrayPins true) ∧
    decodeTableWord 64 0x5100000000000000 = some .invertAllArrayPins := by decide
theorem test_decode_transfers : decodeTableWord 64 0x6000010100000000 = some (.xferBanks 0 1 .msbFirst) ∧
    decodeTableWord 64 0x6101000000000000 = some (.xferBank 1 .lsbFirst) ∧
    decodeTableWord 64 0x6200000100000000 = some (.xferArray .msbFirst) := by decide
theorem test_decode_timers : decodeTableWord 64 0x7001000000000000 = some (.startTimer 1) ∧
    decodeTableWord 64 0x7102000000000000 = some (.stopTimer 2) ∧
    decodeTableWord 64 0x72000000FFFFFFFF = some (.isElapsed 0 4294967295) := by decide
/-- spec/95_test_vectors.md 2.6 rows 1 to 5. -/
theorem test_decode_unassigned : decodeTableWord 64 0x0000000000000000 = none ∧ decodeTableWord 64 0xFFFFFFFFFFFFFFFF = none ∧
    decodeTableWord 64 0x0200000000000000 = none ∧ decodeTableWord 64 0x1500000000000000 = none ∧
    decodeTableWord 64 0x7300000000000000 = none := by decide
/-- spec/95_test_vectors.md 2.6 rows 6 to 14. -/
theorem test_decode_reserved : decodeTableWord 64 0x1000000200000000 = none ∧ decodeTableWord 64 0x1000000100010000 = none ∧
    decodeTableWord 64 0x1001000100000000 = none ∧ decodeTableWord 64 0x1100000100000000 = none ∧
    decodeTableWord 64 0x0102030400000100 = none ∧ decodeTableWord 64 0x5100000000000001 = none ∧
    decodeTableWord 64 0x7000010000000000 = none ∧ decodeTableWord 64 0x6000000300000000 = none ∧
    decodeTableWord 64 0x3000000100000001 = none := by decide

/-! ### Start states of spec/95_test_vectors.md -/

def bank0 : Bank := ⟨2, 3, 4, 2, 0, 15⟩
def bank1 : Bank := ⟨5, 6, 7, 1, 16, 23⟩

/-- `FRESH(4, 2)`. -/
def fresh42 : State := State.fresh ⟨4, 2⟩

/-- `S0`. -/
def S0 : State :=
  { fresh42 with
    sb := [(0, 0xA6#8), (1, 0x3D#8), (2, 0x0F#8)], banks := [bank0, bank1], devUsed := 3, pinsActive := 24
    line := (createEvents 2 3 4 ++ createEvents 5 6 7).foldl applyEvent []
    trace := createEvents 2 3 4 ++ createEvents 5 6 7 }

/-- `S0` with `TMR[0]` counting from 500 and the next clock sample as given (section 2.5). -/
def S0At (now : Nat) : State :=
  { S0 with tmr := [(0, .counting 500#32)], clock := [BitVec.ofNat 32 now], lastSample := 500#32 }

/-- The state after one step that runs the command word, if there is one. -/
def after (s : State) (w : Nat) : Option State :=
  match step (s.withFetchWord 64 w) with
  | .next t => some t
  | .fault _ => none
  | .refused _ => none

theorem s0_inv : S0.Inv where
  cfgOk := by decide
  sbOk := by decide
  sbBound := by decide
  tile := by simp [banksTile, S0, bank0, bank1]
  devTotal := by decide
  pinsTotal := by decide
  devBound := by decide
  bankLines := by simp [S0, bank0, bank1, Bank.linesOk, Config.lineBound]
  traceLines := by decide
  tmrOk := by decide
  tmrBound := by decide
  tmrStarted := by intro _ _ h; cases h
  lineOk := by decide
  lineReplay := rfl
  resultOk := trivial

theorem s0At_inv (now : Nat) : (S0At now).Inv :=
  { s0_inv with
    tmrOk := show Table.wf Timer.idle [(0, Timer.counting 500#32)] by decide
    tmrBound := show ∀ entry ∈ [(0, Timer.counting 500#32)], entry.1 < 2 by decide
    tmrStarted := by
      intro slot first h
      simp only [State.timer, S0At, Table.get] at h
      split at h
      · cases h; exact BitVec.le_refl _
      · cases h }

theorem fresh42_inv : fresh42.Inv where
  cfgOk := by decide
  sbOk := by decide
  sbBound := by decide
  tile := trivial
  devTotal := rfl
  pinsTotal := rfl
  devBound := by decide
  bankLines := by intro b hb; cases hb
  traceLines := by decide
  tmrOk := by decide
  tmrBound := by decide
  tmrStarted := by intro _ _ h; cases h
  lineOk := by decide
  lineReplay := rfl
  resultOk := trivial

theorem test_reset_memory_wf : State.reset.sb.wf := by decide

/-- The lines of S0: 2 to 7 are outputs at level 0, line 8 is untouched. -/
theorem test_s0_lines : S0.lineImage 2 = ⟨.output, .known false⟩ ∧ S0.lineImage 7 = ⟨.output, .known false⟩ ∧
    S0.lineImage 8 = ⟨.unconfigured, .unknown⟩ := by decide

/-! ### Bank allocator (2.1) -/

theorem test_create_first : (after fresh42 0x0102030400000004).map (fun t => (t.banks, t.views, t.trace, t.result.word)) =
    some ([⟨2, 3, 4, 4, 0, 31⟩], ⟨4, 2, 4, 32, 1⟩,
      [.cfg 2, .wr 2 false, .cfg 3, .wr 3 false, .cfg 4, .wr 4 false], 0x00000000#32) := by decide
theorem test_create_beyond : after S0 0x0108090A00000002 = some { S0 with result := .err .eCreate } := by decide

/-! ### Pin addressing (2.2) -/

theorem test_set_array_pin : after S0 0x1000000000000007 =
    some { S0 with sb := [(0, 0x26#8), (1, 0x3D#8), (2, 0x0F#8)], result := .okVal 7 } := by decide
theorem test_set_array_pin_inactive : after S0 0x1000000100000018 = some { S0 with result := .err .ePin } := by decide
theorem test_invert_array_pin : after S0 0x1100000000000010 =
    some { S0 with sb := [(0, 0xA6#8), (1, 0x3D#8), (2, 0x0E#8)], result := .okVal 0 } := by decide
theorem test_read_array_pin : after S0 0x1200000000000010 = some { S0 with result := .okVal 1 } := by decide
theorem test_set_bank_pin_crosses : after S0 0x2000000100000017 =
    some { S0 with sb := [(0, 0xA6#8), (1, 0x3D#8), (2, 0x8F#8)], result := .okVal 23 } := by decide
theorem test_set_bank_pin_bank_first : after S0 0x200200010000FFFF = some { S0 with result := .err .eBank } := by decide
theorem test_invert_bank_pin : after S0 0x210000000000000F =
    some { S0 with sb := [(0, 0xA6#8), (1, 0xBD#8), (2, 0x0F#8)], result := .okVal 1 } := by decide
theorem test_read_bank_pin : after S0 0x2200000000000013 = some { S0 with result := .okVal 1 } := by decide
theorem test_get_bank_from_pin : after S0 0x1300000000000010 = some { S0 with result := .okVal 1 } := by decide
theorem test_get_bank_reserved_pin : after S0 0x1300000000000018 = some { S0 with result := .err .ePin } := by decide
theorem test_num_pins_in_bank : after S0 0x1400000000000000 = some { S0 with result := .okVal 16 } := by decide

/-! ### Whole banks, devices, the array (2.3) -/

theorem test_set_bank : after S0 0x3000000100000000 =
    some { S0 with sb := [(0, 0xFF#8), (1, 0xFF#8), (2, 0x0F#8)], result := .okUnit } := by decide
theorem test_set_bank_unallocated : after S0 0x3002000100000000 = some { S0 with result := .okUnit } := by decide
theorem test_invert_bank : after S0 0x3101000000000000 =
    some { S0 with sb := [(0, 0xA6#8), (1, 0x3D#8), (2, 0xF0#8)], result := .okUnit } := by decide
theorem test_set_banks : after S0 0x3200010000000000 = some { S0 with sb := [], result := .okUnit } := by decide
theorem test_set_banks_not_partly : after S0 0x3200020100000000 = some { S0 with result := .okUnit } := by decide
theorem test_invert_banks : after S0 0x3300010000000000 =
    some { S0 with sb := [(0, 0x59#8), (1, 0xC2#8), (2, 0xF0#8)], result := .okUnit } := by decide
theorem test_set_bank_sipo : after S0 0x4000015500000000 =
    some { S0 with sb := [(0, 0xA6#8), (1, 0x55#8), (2, 0x0F#8)], result := .okVal 0x55 } := by decide
theorem test_set_bank_sipo_device : after S0 0x4000025500000000 = some { S0 with result := .err .eDevice } := by decide
theorem test_invert_bank_sipo : after S0 0x4100000000000000 =
    some { S0 with sb := [(0, 0x59#8), (1, 0x3D#8), (2, 0x0F#8)], result := .okVal 0x59 } := by decide
theorem test_read_bank_sipo : after S0 0x4200010000000000 = some { S0 with result := .okVal 0x3D } := by decide
theorem test_set_all_array_pins : after S0 0x5000000100000000 =
    some { S0 with sb := [(0, 0xFF#8), (1, 0xFF#8), (2, 0xFF#8), (3, 0xFF#8)], result := .okUnit } := by decide
theorem test_invert_all_array_pins : after S0 0x5100000000000000 =
    some { S0 with sb := [(0, 0x59#8), (1, 0xC2#8), (2, 0xF0#8), (3, 0xFF#8)], result := .okUnit } := by decide

/-! ### Transfers (2.4) -/

/-- The events one command adds to the trace of S0. -/
def emitted (w : Nat) : Option (List LineEvent) := (after S0 w).map fun t => t.trace.drop S0.trace.length

/-- The full trace of row 4, XFER_BANK 1, LSB_FIRST. -/
theorem test_xfer_bank_lsb : emitted 0x6101000000000000 = some
    [.wr 7 false, .wr 5 true, .wr 6 true, .wr 6 false, .wr 5 true, .wr 6 true, .wr 6 false, .wr 5 true, .wr 6 true, .wr 6 false,
     .wr 5 true, .wr 6 true, .wr 6 false, .wr 5 false, .wr 6 true, .wr 6 false, .wr 5 false, .wr 6 true, .wr 6 false,
     .wr 5 false, .wr 6 true, .wr 6 false, .wr 5 false, .wr 6 true, .wr 6 false, .wr 7 true] := by decide
/-- Row 1: data bits 0011110110100110, and the levels left on lines 4, 3 and 2. -/
theorem test_xfer_bank_msb : (emitted 0x6100000100000000).map (levelsWritten 2) =
    some [false, false, true, true, true, true, false, true, true, false, true, false, false, true, true, false] ∧
    (after S0 0x6100000100000000).map (fun t => (t.lineImage 4, t.lineImage 3, t.lineImage 2)) =
      some (⟨.output, .known true⟩, ⟨.output, .known false⟩, ⟨.output, .known false⟩) := by decide
theorem test_xfer_banks : (emitted 0x6000010000000000).map (fun es => (es.length, levelsWritten 5 es)) =
    some (76, [true, true, true, true, false, false, false, false]) := by decide
theorem test_xfer_banks_malformed : after S0 0x6000020100000000 = some { S0 with result := .okUnit } := by decide
theorem test_xfer_array : (emitted 0x6200000100000000) = emitted 0x6000010100000000 := by decide
theorem test_xfer_array_no_bank : after fresh42 0x6200000100000000 = some { fresh42 with result := .okUnit } := by decide

/-! ### Timers (2.5) -/

theorem test_start_timer : (after (S0At 700) 0x7001000000000000).map (fun t => (t.tmr, t.result, t.clock)) =
    some ([(0, .counting 500#32), (1, .counting 700#32)], .okUnit, []) := by decide
theorem test_start_timer_invalid : after (S0At 700) 0x7002000000000000 = some { S0At 700 with result := .okUnit } := by decide
theorem test_stop_timer : after (S0At 700) 0x7100000000000000 = some { S0At 700 with tmr := [], result := .okUnit } := by decide
theorem test_is_elapsed_not_yet : (after (S0At 599) 0x7200000000000064).map (fun t => (t.tmr, t.result)) =
    some ([(0, .counting 500#32)], .okVal 0) := by decide
theorem test_is_elapsed_reached : (after (S0At 600) 0x7200000000000064).map (fun t => (t.tmr, t.result)) =
    some ([], .okVal 1) := by decide

/-! ### The rest -/

theorem test_illegal_word : after S0 0xFFFFFFFFFFFFFFFF = some { S0 with result := .err .eIllegal } := by decide
theorem test_result_words : (Result.okVal 2040).word = 0x000007F8#32 ∧ (Result.err .eCreate).word = 0x10000000#32 ∧
    (Result.err .ePin).word = 0x20000000#32 ∧ (Result.err .eBank).word = 0x30000000#32 ∧
    (Result.err .eDevice).word = 0x40000000#32 ∧ (Result.err .eIllegal).word = 0xF0000000#32 ∧
    Result.okUnit.word = 0x00000000#32 := by decide
/-- With no sample presented, START_TIMER of the reset instance still runs, on a free instant. -/
theorem test_start_timer_free : ∃ t, exec (.startTimer 0) State.reset = .next t := ⟨_, rfl⟩
theorem test_assembler_errors : assembleLine "NOP" = .error .unknownMnemonic ∧ assembleLine "SET_BANK 0" = .error .wrongOperands ∧
    assembleLine "SET_BANK 0, maybe" = .error .badOperand ∧ assembleLine "  ; a comment" = .ok none ∧
    assembleLine "SET_BANK_SIPO 0, 1, 0xA6" = .ok (some (.setBankSipo 0 1 0xA6#8)) := by decide
/-- Lines in neither form of R101 (log 16), and the call form of a command with no operands. -/
theorem test_assembler_call_form : assembleLine "set_array_pin(0, 1) set_array_pin(1, 1)" = .error .badForm ∧
    assembleLine "set_array_pin(0, 1" = .error .badForm ∧ assembleLine "set_array_pin 0, 1" = .error .badForm ∧
    assembleLine "invert_all_array_pins()" = .ok (some .invertAllArrayPins) ∧
    assembleLine "INVERT_ALL_ARRAY_PINS" = .ok (some .invertAllArrayPins) := by decide
/-- P1 of spec/96_test_programs.md, step 5: output 0 of the chain on lines (2,3,4) high and the other fifteen low. -/
theorem test_devices_p1 :
    (Chain.watch bank0 ⟨List.replicate 16 true, List.replicate 16 true, false, false, false⟩
      (frame [(0, 0x01#8)] bank0 .msbFirst)).outputs = true :: List.replicate 15 false := by decide

/-! ### Witnesses: a state and operands that meet the hypotheses of each statement, clause by clause -/

theorem clockOk_of_head {s : State} {now : Instant} (h : s.clock.head? = some now) (hle : s.lastSample ≤ now) : s.ClockOk := by
  intro n hn
  rw [h] at hn
  cases hn
  exact hle

theorem s0_clockOk : S0.ClockOk := by intro n hn; cases hn
theorem s0At500_clockOk : (S0At 500).ClockOk := clockOk_of_head (now := 500#32) rfl (by decide)
theorem s0At600_clockOk : (S0At 600).ClockOk := clockOk_of_head (now := 600#32) rfl (by decide)

theorem witness_ConstructionClearsStatusBytes : 1 ≤ 1 ∧ 1 ≤ 255 ∧ 0 ≤ 255 ∧ 0 < 1 := by decide
theorem witness_ConstructionLeavesResetState : 1 ≤ 255 ∧ 255 ≤ 255 ∧ 0 ≤ 255 := by decide
theorem witness_ConstructionFailsWithoutInstance : (1 ≤ 1 ∧ 1 ≤ 255 ∧ 255 ≤ 255) ∧ (0 = 0 ∨ 255 < 0 ∨ 255 < 0) ∧
    (256 = 0 ∨ 255 < 256 ∨ 255 < 0) ∧ (1 = 0 ∨ 255 < 1 ∨ 255 < 256) := by decide
theorem witness_ResetMeetsInvariant : Config.wf ⟨1, 0⟩ = true ∧ Config.wf ⟨255, 255⟩ = true := by decide
theorem witness_StepKeepsInvariant :
    (S0.withFetchWord 64 0x5100000000000000).Inv ∧ ∃ t, step (S0.withFetchWord 64 0x5100000000000000) = .next t :=
  ⟨{ s0_inv with }, _, rfl⟩
theorem witness_StepNeverFaults : (S0.withFetchWord 64 0x5100000000000000).Inv := { s0_inv with }
theorem witness_StepCompletes : (S0At 500).Inv ∧ (S0At 500).ClockOk ∧ (State.withFetchWord (S0At 500) 64 0x7000000000000000).Inv ∧
    (State.withFetchWord (S0At 500) 64 0x7000000000000000).ClockOk ∧
    (State.withFetchWord (S0At 500) 64 0x7000000000000000).commands ≠ [] :=
  ⟨s0At_inv 500, s0At500_clockOk, { s0At_inv 500 with }, clockOk_of_head (now := 500#32) rfl (by decide), by decide⟩
theorem witness_StepRunsDecodedCommand : (S0.withFetchWord 64 0x0108090A00000001).commands = 0x0108090A00000001#64 :: [] ∧
    decode 0x0108090A00000001#64 = .ok (.createBank 8 9 10 1) := by decide
theorem witness_StepRefusesIllegalWord : (S0.withFetchWord 64 0x1500000000000000).commands = 0x1500000000000000#64 :: [] ∧
    decode 0x1500000000000000#64 = .error (.unassignedOp 0x15) := by decide
theorem witness_StepNeedsCommand : S0.commands = [] := rfl
theorem witness_DecodeOfEncode : (Instr.setBankPin 255 65535 true).wf = true := by decide
theorem witness_EncodeOfDecode : decode 0x01FFFFFF00000001#64 = .ok (.createBank 255 255 255 1) := by decide
theorem witness_ResultWordFields : (Result.okVal 65535).wf := by simp [Result.wf]
theorem witness_CreateBankAllocates : S0.Inv ∧ (1 ≤ 1 ∧ S0.devUsed + 1 ≤ S0.cfg.nDev) ∧ S0.cfg.nDev < S0.devUsed + 2 :=
  ⟨s0_inv, by decide, by decide⟩
theorem witness_BankAllocationProperties : (∃ t, step (S0.withFetchWord 64 0x0108090A00000001) = .next t) ∧
    (1 ≤ 1 ∧ S0.devUsed + 1 ≤ S0.cfg.nDev) ∧ S0.Inv ∧ S0.banks[0]? = some bank0 ∧ S0.banks[0 + 1]? = some bank1 ∧ 0 < 1 :=
  ⟨⟨_, rfl⟩, by decide, s0_inv, rfl, rfl, by decide⟩
theorem witness_OnlyCreateBankWritesBanks : (∃ t, exec (.createBank 8 9 10 1) S0 = .next t) ∧
    Instr.isCreate (.createBank 8 9 10 1) = true ∧ (∃ t, exec .invertAllArrayPins S0 = .next t) ∧
    Instr.isCreate .invertAllArrayPins = false := ⟨⟨_, rfl⟩, rfl, ⟨_, rfl⟩, rfl⟩
theorem witness_CountersNeverDecrease : ∃ t, step (S0.withFetchWord 64 0x0108090A00000001) = .next t := ⟨_, rfl⟩

/-- Pins at the boundaries: the last active one and the first one beyond. -/
theorem witness_pins : S0.Inv ∧ 23 < S0.pinsActive ∧ S0.pinsActive ≤ 24 := ⟨s0_inv, by decide, by decide⟩
theorem witness_SetArrayPinWritesOneBit : S0.Inv ∧ 23 < S0.pinsActive ∧ S0.pinsActive ≤ 24 := witness_pins
theorem witness_InvertArrayPinFlipsOneBit : S0.Inv ∧ 23 < S0.pinsActive ∧ S0.pinsActive ≤ 24 := witness_pins
theorem witness_ReadArrayPinReturnsBit : S0.Inv ∧ 23 < S0.pinsActive ∧ S0.pinsActive ≤ 24 := witness_pins
theorem witness_GetBankFromPinFindsUniqueBank : S0.Inv ∧ 23 < S0.pinsActive ∧ S0.pinsActive ≤ 24 ∧ S0.banks[1]? = some bank1 ∧
    bank1.low ≤ 23 ∧ 23 ≤ bank1.high := ⟨s0_inv, by decide, by decide, rfl, by decide, by decide⟩

/-- Bank-relative pins at the boundaries: an unallocated bank, the last active pin reached from bank 0, and the first
beyond. -/
theorem witness_bank_pins : S0.Inv ∧ S0.banksUsed ≤ 2 ∧ S0.banks[0]? = some bank0 ∧ bank0.low + 23 < S0.pinsActive ∧
    S0.pinsActive ≤ bank0.low + 24 := ⟨s0_inv, by decide, rfl, by decide, by decide⟩
theorem witness_SetBankPinWritesTranslatedPin : S0.Inv ∧ S0.banksUsed ≤ 2 ∧ S0.banks[0]? = some bank0 ∧
    bank0.low + 23 < S0.pinsActive ∧ S0.pinsActive ≤ bank0.low + 24 := witness_bank_pins
theorem witness_InvertBankPinFlipsTranslatedPin : S0.Inv ∧ S0.banksUsed ≤ 2 ∧ S0.banks[0]? = some bank0 ∧
    bank0.low + 23 < S0.pinsActive ∧ S0.pinsActive ≤ bank0.low + 24 := witness_bank_pins
theorem witness_ReadBankPinReturnsTranslatedBit : S0.Inv ∧ S0.banksUsed ≤ 2 ∧ S0.banks[0]? = some bank0 ∧
    bank0.low + 23 < S0.pinsActive ∧ S0.pinsActive ≤ bank0.low + 24 := witness_bank_pins

/-- Banks at the boundaries: the last allocated one, and the first unallocated index. -/
theorem witness_banks : S0.Inv ∧ S0.banks[1]? = some bank1 ∧ S0.banksUsed ≤ 2 := ⟨s0_inv, rfl, by decide⟩
theorem witness_NumPinsInBankCounts : S0.Inv ∧ S0.banks[1]? = some bank1 ∧ S0.banksUsed ≤ 2 := witness_banks
theorem witness_BankCommandsMapTheirPins : S0.Inv ∧ S0.banks[1]? = some bank1 ∧ S0.banksUsed ≤ 2 := witness_banks
theorem witness_XferBankEmitsFrame : S0.Inv ∧ S0.banks[1]? = some bank1 ∧ S0.banksUsed ≤ 2 := witness_banks

/-- Ranges at the boundaries: the widest valid one, and the two malformed kinds. -/
theorem witness_ranges : S0.Inv ∧ (0 ≤ 1 ∧ S0.banks[0]? = some bank0 ∧ S0.banks[1]? = some bank1) ∧ 0 < 1 ∧ S0.banksUsed ≤ 2 :=
  ⟨s0_inv, ⟨by decide, rfl, rfl⟩, by decide, by decide⟩
theorem witness_SetBanksFillsRange : S0.Inv ∧ (0 ≤ 1 ∧ S0.banks[0]? = some bank0 ∧ S0.banks[1]? = some bank1) ∧ 0 < 1 ∧
    S0.banksUsed ≤ 2 := witness_ranges
theorem witness_InvertBanksFlipsRange : S0.Inv ∧ (0 ≤ 1 ∧ S0.banks[0]? = some bank0 ∧ S0.banks[1]? = some bank1) ∧ 0 < 1 ∧
    S0.banksUsed ≤ 2 := witness_ranges
theorem witness_XferBanksEmitsFramesInOrder : S0.Inv ∧ 0 ≤ 1 ∧ 1 < S0.banksUsed := ⟨s0_inv, by decide, by decide⟩
theorem witness_XferMalformedRangeIsNoOp : ¬ (1 ≤ 0 ∧ 0 < S0.banksUsed) ∧ ¬ (0 ≤ 2 ∧ 2 < S0.banksUsed) := by decide
theorem witness_XferArrayEmitsEveryBank : S0.Inv ∧ fresh42.Inv ∧ fresh42.banks = [] := ⟨s0_inv, fresh42_inv, rfl⟩
theorem witness_TransferLength : S0.Inv ∧ 0 ≤ 1 ∧ 1 < S0.banksUsed ∧ ∃ t, exec (.xferBanks 0 1 .msbFirst) S0 = .next t :=
  ⟨s0_inv, by decide, by decide, _, rfl⟩
theorem witness_BankCommandsEqualPinLoops : S0.Inv ∧ S0.banks[1]? = some bank1 ∧
    [23, 22, 21, 20, 19, 18, 17, 16].Perm ((List.range (8 * bank1.count)).map (fun t => bank1.low + t)) :=
  ⟨s0_inv, rfl, by decide⟩

/-- Devices at the boundaries: the last device of bank 0 and the first index beyond. -/
theorem witness_devices : S0.Inv ∧ S0.banksUsed ≤ 2 ∧ S0.banks[0]? = some bank0 ∧ 1 < bank0.count ∧ bank0.count ≤ 2 :=
  ⟨s0_inv, by decide, rfl, by decide, by decide⟩
theorem witness_SetBankSipoWritesByte : S0.Inv ∧ S0.banksUsed ≤ 2 ∧ S0.banks[0]? = some bank0 ∧ 1 < bank0.count ∧
    bank0.count ≤ 2 := witness_devices
theorem witness_InvertBankSipoComplementsByte : S0.Inv ∧ S0.banksUsed ≤ 2 ∧ S0.banks[0]? = some bank0 ∧ 1 < bank0.count ∧
    bank0.count ≤ 2 := witness_devices
theorem witness_ReadBankSipoReturnsByte : S0.Inv ∧ S0.banksUsed ≤ 2 ∧ S0.banks[0]? = some bank0 ∧ 1 < bank0.count ∧
    bank0.count ≤ 2 := witness_devices
theorem witness_SetAllArrayPinsFillsStore : S0.Inv ∧ 3 < S0.cfg.nDev ∧ S0.cfg.nDev ≤ 4 := ⟨s0_inv, by decide, by decide⟩
theorem witness_InvertAllArrayPinsComplementsStore : S0.Inv ∧ 3 < S0.cfg.nDev ∧ S0.cfg.nDev ≤ 4 := ⟨s0_inv, by decide, by decide⟩
theorem witness_InvertTwiceRestoresStore : S0.Inv ∧ Instr.isInvert .invertAllArrayPins = true ∧
    ∃ t u, exec .invertAllArrayPins S0 = .next t ∧ exec .invertAllArrayPins t = .next u := ⟨s0_inv, rfl, _, _, rfl, rfl⟩
theorem witness_IdempotentCommands : S0.Inv ∧ Instr.isIdempotent (.setAllArrayPins false) = true ∧
    ∃ t, exec (.setAllArrayPins false) S0 = .next t := ⟨s0_inv, rfl, _, rfl⟩

/-- A bank with three distinct lines, its transfers in both orders, and its clock line low before them. -/
theorem witness_frame : S0.Inv ∧ S0.banks[1]? = some bank1 ∧ bank1.linesDistinct ∧
    (∃ t, exec (.xferBank 1 .msbFirst) S0 = .next t) ∧ (∃ u, exec (.xferBank 1 .lsbFirst) S0 = .next u) ∧
    (S0.lineImage bank1.clock).level ≠ .known true :=
  ⟨s0_inv, rfl, by simp [Bank.linesDistinct, bank1], ⟨_, rfl⟩, ⟨_, rfl⟩, by decide⟩
theorem witness_FrameLeavesLineLevels : S0.Inv ∧ S0.banks[1]? = some bank1 ∧ bank1.linesDistinct ∧
    ∃ t, exec (.xferBank 1 .msbFirst) S0 = .next t := ⟨s0_inv, rfl, witness_frame.2.2.1, _, rfl⟩
/-- The shortest and the longest part of the frame before a cut. -/
theorem witness_LatchLowDuringFrame : S0.Inv ∧ S0.banks[1]? = some bank1 ∧ bank1.linesDistinct ∧
    ∃ t, exec (.xferBank 1 .msbFirst) S0 = .next t ∧
      (t.trace = S0.trace ++ [.wr 7 false] ++ t.trace.drop 13 ∧ t.trace.drop 13 ≠ []) ∧
      (t.trace = S0.trace ++ (t.trace.drop 12).take 25 ++ [.wr 7 true] ∧ (t.trace.drop 12).take 25 ≠ []) :=
  ⟨s0_inv, rfl, witness_frame.2.2.1, _, rfl, by decide, by decide⟩
/-- The first data write of the frame. -/
theorem witness_DataStableDuringClockPulse : S0.Inv ∧ S0.banks[1]? = some bank1 ∧ bank1.linesDistinct ∧
    (S0.lineImage bank1.clock).level ≠ .known true ∧
    ∃ t, exec (.xferBank 1 .lsbFirst) S0 = .next t ∧
      t.trace = S0.trace ++ [.wr 7 false] ++ .wr bank1.data true :: t.trace.drop 14 :=
  ⟨s0_inv, rfl, witness_frame.2.2.1, by decide, _, rfl, by decide⟩
theorem witness_BitOrdersAreReverses : S0.Inv ∧ S0.banks[1]? = some bank1 ∧ bank1.linesDistinct ∧
    (∃ t, exec (.xferBank 1 .msbFirst) S0 = .next t) ∧ ∃ u, exec (.xferBank 1 .lsbFirst) S0 = .next u :=
  ⟨s0_inv, rfl, witness_frame.2.2.1, ⟨_, rfl⟩, _, rfl⟩
theorem witness_FrameShowsStoreOnDevices : S0.Inv ∧ S0.banks[1]? = some bank1 ∧ bank1.linesDistinct ∧
    (Chain.mk (List.replicate 8 true) [] true true true).stages.length = 8 * bank1.count ∧
    (∃ t, exec (.xferBank 1 .msbFirst) S0 = .next t) ∧ ∃ u, exec (.xferBank 1 .lsbFirst) S0 = .next u :=
  ⟨s0_inv, rfl, witness_frame.2.2.1, rfl, ⟨_, rfl⟩, _, rfl⟩

/-- The last valid slot and the first invalid one; a clock that has not advanced, and one with no sample presented. -/
theorem witness_StartTimerCapturesInstant : (S0At 500).Inv ∧ 1 < (S0At 500).cfg.nTmr ∧ (S0At 500).ClockOk ∧ S0.Inv ∧ S0.ClockOk ∧
    (S0At 500).cfg.nTmr ≤ 2 := ⟨s0At_inv 500, by decide, s0At500_clockOk, s0_inv, s0_clockOk, by decide⟩
theorem witness_StopTimerIdlesSlot : (S0At 500).Inv ∧ 1 < (S0At 500).cfg.nTmr ∧ (S0At 500).cfg.nTmr ≤ 2 :=
  ⟨s0At_inv 500, by decide, by decide⟩
/-- An invalid slot, an idle one, and a counting one with the clock one below, at, and with the least duration. -/
theorem witness_IsElapsedConsumesSlot : (S0At 600).Inv ∧ (S0At 600).cfg.nTmr ≤ 2 ∧ (S0At 600).timer 1 = .idle ∧
    0 < (S0At 600).cfg.nTmr ∧ (S0At 600).timer 0 = .counting 500#32 ∧ (S0At 600).ClockOk ∧ (S0At 600).clock.head? = some 600#32 ∧
    (500#32).toNat + 100 ≤ (600#32).toNat ∧ (600#32).toNat < (500#32).toNat + 101 :=
  ⟨s0At_inv 600, by decide, by decide, by decide, by decide, s0At600_clockOk, by decide, by decide, by decide⟩
theorem witness_BackwardClockIsNoRun : ¬ (S0At 499).ClockOk ∧ 0 < (S0At 499).cfg.nTmr ∧ (S0At 499).timer 0 = .counting 500#32 :=
  ⟨fun h => absurd (h 499#32 rfl) (by decide), by decide, by decide⟩
theorem witness_OnlyStartTimerArmsSlot : (S0At 600).Inv ∧ (S0At 600).timer 1 = .idle ∧
    (∃ t, exec (.isElapsed 0 100) (S0At 600) = .next t) ∧ Instr.isElapsed 0 100 ≠ .startTimer 1 ∧
    Instr.isElapsed 0 100 ≠ .stopTimer 1 ∧ ∀ duration, Instr.isElapsed 0 100 ≠ .isElapsed 1 duration :=
  ⟨s0At_inv 600, by decide, ⟨_, rfl⟩, by decide, by decide, by intro d h; cases h⟩
theorem witness_ClockNeverGoesBack : (∃ t, exec (.startTimer 0) (S0At 500) = .next t) ∧
    (∃ t, exec (.stopTimer 0) (S0At 500) = .next t) ∧ (∀ slot, Instr.stopTimer 0 ≠ .startTimer slot) ∧
    ∀ slot duration, Instr.stopTimer 0 ≠ .isElapsed slot duration :=
  ⟨⟨_, rfl⟩, ⟨_, rfl⟩, by simp, by simp⟩
theorem witness_FailureChangesOnlyResult :
    ∃ t, step (S0.withFetchWord 64 0x1000000100000018) = .next t ∧ t.result = .err .ePin := ⟨_, rfl, rfl⟩
theorem witness_TraceIsAppendOnly : (∃ t, exec (.xferArray .msbFirst) S0 = .next t) ∧ (∃ t, exec .invertAllArrayPins S0 = .next t) ∧
    Instr.isCreate .invertAllArrayPins = false ∧ Instr.isTransfer .invertAllArrayPins = false := ⟨⟨_, rfl⟩, ⟨_, rfl⟩, rfl, rfl⟩
theorem witness_OnlyStoreCommandsWriteBytes : (∃ t, exec (.xferArray .msbFirst) S0 = .next t) ∧
    Instr.writesStore (.xferArray .msbFirst) = false := ⟨⟨_, rfl⟩, rfl⟩
theorem witness_TimersShareNothingWithStore : Instr.isTimer (.isElapsed 0 100) = true ∧
    ∃ t, exec (.isElapsed 0 100) (S0At 600) = .next t := ⟨rfl, _, rfl⟩

end Sys2Proof.Tests
end

/-! The statements about the scope of the controller (spec/00_scope.md): a step runs the decoded command (R9, R36), the
capacities are constant and the counters never decrease (R7, R30), the Timer Utility is independent of the rest (R3). -/
namespace Sys2Proof.Machine

variable {s t : State} {i : Instr}

/-! ### The step and the word it takes -/

/-- Taking a command word that the host has issued. -/
theorem State.fetch_cons {w : CommandWord} {later : List CommandWord} (h : s.commands = w :: later) :
    s.fetch = some (w, { s with commands := later }) := by
  simp only [State.fetch, h]

/-- Settles O8: the fetch takes the word, and its decoding chooses the arm of `step` that runs the command. -/
theorem stepRunsDecodedCommand : Obligations.StepRunsDecodedCommand := by
  intro s w later i hcommands hdecode
  simp only [step, State.fetch_cons hcommands, hdecode]

/-! ### The parameters, the bank table and its counters -/

theorem State.sampleClock_cfg {now : Instant} (h : s.sampleClock = some (now, t)) : t.cfg = s.cfg := by
  rw [State.sampleClock_rest h]

theorem State.sampleClock_allocation {now : Instant} (h : s.sampleClock = some (now, t)) :
    t.banks = s.banks ∧ t.devUsed = s.devUsed ∧ t.pinsActive = s.pinsActive := by
  rw [State.sampleClock_rest h]
  exact ⟨rfl, rfl, rfl⟩

/-- No command changes the construction parameters (R7). -/
theorem Effect.cfg_eq (h : Effect s i t) : t.cfg = s.cfg := by
  cases h with
  | result | store | create | transfer | stop => rfl
  | start _ _ _ _ hu => simpa using State.sampleClock_cfg hu
  | elapsed _ _ _ _ _ _ _ hu => simpa using State.sampleClock_cfg hu
  | pending _ _ _ _ _ _ _ hu => simpa using State.sampleClock_cfg hu

/-- A command leaves the bank table and its counters as they are, or it is CREATE_BANK and appends one bank and counts its
devices and pins (R27, R120). -/
theorem Effect.allocation (h : Effect s i t) :
    (t.banks = s.banks ∧ t.devUsed = s.devUsed ∧ t.pinsActive = s.pinsActive) ∨
    (i.isCreate = true ∧ ∃ b : Bank, t.banks = s.banks ++ [b] ∧ t.devUsed = s.devUsed + b.count ∧
      t.pinsActive = s.pinsActive + b.count * 8) := by
  cases h with
  | result | store | transfer | stop => exact .inl ⟨rfl, rfl, rfl⟩
  | create data clock latch count => exact .inr ⟨rfl, s.newBank data clock latch count, rfl, rfl, rfl⟩
  | start _ _ _ _ hu => exact .inl (by simpa using State.sampleClock_allocation hu)
  | elapsed _ _ _ _ _ _ _ hu => exact .inl (by simpa using State.sampleClock_allocation hu)
  | pending _ _ _ _ _ _ _ hu => exact .inl (by simpa using State.sampleClock_allocation hu)

/-- No command decreases a counter (R30). -/
theorem Effect.counters_le (h : Effect s i t) :
    s.devUsed ≤ t.devUsed ∧ s.pinsActive ≤ t.pinsActive ∧ s.banksUsed ≤ t.banksUsed := by
  obtain ⟨hbanks, hdev, hpins⟩ | ⟨-, b, hbanks, hdev, hpins⟩ := h.allocation
  · simp [State.banksUsed, hbanks, hdev, hpins]
  · simp [State.banksUsed, hbanks, hdev, hpins]

/-- Settles O20: a legal word runs a command, whose effect is one of `Effect`; an illegal one writes `RESULT` alone. -/
theorem countersNeverDecrease : Obligations.CountersNeverDecrease := by
  intro s t h
  obtain ⟨w, later, -, ⟨i, -, hexec⟩ | ⟨e, -, rfl⟩⟩ := step_next h
  · have heffect := exec_effect hexec
    exact ⟨heffect.cfg_eq, heffect.counters_le⟩
  · exact ⟨rfl, Nat.le_refl _, Nat.le_refl _, Nat.le_refl _⟩

/-! ### The Timer Utility and the rest of the block -/

/-- `s` with the store, the banks, the counters, the lines and the trace of `other`: the fields that are not the Timer
Utility's. -/
def State.withRestOf (s other : State) : State :=
  { s with sb := other.sb, banks := other.banks, devUsed := other.devUsed, pinsActive := other.pinsActive,
           line := other.line, trace := other.trace }

/-- The outcome with its next state, if it has one, through `f`. -/
def mapNext (f : State → State) : Host.Outcome State Fault Refusal → Host.Outcome State Fault Refusal
  | .next s => .next (f s)
  | .fault r => .fault r
  | .refused r => .refused r

variable (other : State)

@[simp] theorem State.withRestOf_cfg : (s.withRestOf other).cfg = s.cfg := rfl
@[simp] theorem State.withRestOf_timer (slot : Nat) : (s.withRestOf other).timer slot = s.timer slot := rfl

theorem State.withRestOf_views (h : s.cfg = other.cfg) : (s.withRestOf other).views = other.views := by
  simp only [State.views, State.withRestOf_cfg, h]
  rfl

/-- The clock sample does not depend on the rest of the block. -/
theorem State.sampleClock_withRestOf :
    (s.withRestOf other).sampleClock = s.sampleClock.map fun sample => (sample.1, sample.2.withRestOf other) := by
  obtain ⟨_, _, _, _, _, _, _, _, _, _, clock, last, _⟩ := s
  cases clock with
  | nil => rfl
  | cons now later =>
    by_cases hlaw : last ≤ now
    · simp [State.sampleClock, State.withRestOf, hlaw]
    · simp [State.sampleClock, State.withRestOf, hlaw]

theorem State.withSample_withRestOf {go : Instant → State → Host.Outcome State Fault Refusal}
    (hgo : ∀ now u, go now (u.withRestOf other) = mapNext (·.withRestOf other) (go now u)) :
    (s.withRestOf other).withSample go = mapNext (·.withRestOf other) (s.withSample go) := by
  simp only [State.withSample, State.sampleClock_withRestOf]
  cases s.sampleClock with
  | none => rfl
  | some sample => exact hgo sample.1 sample.2

theorem execStartTimer_withRestOf (slot : Nat) :
    execStartTimer slot (s.withRestOf other) = mapNext (·.withRestOf other) (execStartTimer slot s) := by
  unfold execStartTimer
  by_cases hslot : s.cfg.nTmr ≤ slot
  · simp only [State.withRestOf_cfg, hslot, if_true]; rfl
  · simp only [State.withRestOf_cfg, hslot, if_false]
    exact State.withSample_withRestOf other fun _ _ => rfl

theorem execStopTimer_withRestOf (slot : Nat) :
    execStopTimer slot (s.withRestOf other) = mapNext (·.withRestOf other) (execStopTimer slot s) := by
  unfold execStopTimer
  by_cases hslot : s.cfg.nTmr ≤ slot
  · simp only [State.withRestOf_cfg, hslot, if_true]; rfl
  · simp only [State.withRestOf_cfg, hslot, if_false]; rfl

theorem execIsElapsed_withRestOf (slot duration : Nat) :
    execIsElapsed slot duration (s.withRestOf other) = mapNext (·.withRestOf other) (execIsElapsed slot duration s) := by
  unfold execIsElapsed
  by_cases hslot : s.cfg.nTmr ≤ slot
  · simp only [State.withRestOf_cfg, hslot, if_true]; rfl
  · simp only [State.withRestOf_cfg, State.withRestOf_timer, hslot, if_false]
    cases s.timer slot with
    | idle => rfl
    | counting start =>
      refine State.withSample_withRestOf other fun now u => ?_
      by_cases helapsed : duration ≤ now.toNat - start.toNat
      · simp only [if_pos helapsed]; rfl
      · simp only [if_neg helapsed]; rfl

/-- A timer command acts the same whatever the rest of the block is, and carries the rest along (R3, R190 to R192). -/
theorem exec_timer_withRestOf (hi : i.isTimer = true) :
    exec i (s.withRestOf other) = mapNext (·.withRestOf other) (exec i s) := by
  cases i with
  | startTimer slot => exact execStartTimer_withRestOf other slot
  | stopTimer slot => exact execStopTimer_withRestOf other slot
  | isElapsed slot duration => exact execIsElapsed_withRestOf other slot duration
  | _ => cases hi

/-- Settles O60: a timer command carries any rest of the block along; with the rest that `s` has itself, this says that it
leaves that rest unchanged. -/
theorem timersShareNothingWithStore : Obligations.TimersShareNothingWithStore := by
  intro i s t other hi h
  have carried (o : State) : exec i (s.withRestOf o) = .next (t.withRestOf o) := by
    rw [exec_timer_withRestOf o hi, h]; rfl
  have hrest : t = t.withRestOf s := Host.Outcome.next.inj (h.symm.trans (carried s))
  refine ⟨carried other, ?_⟩
  rw [hrest]
  exact ⟨rfl, rfl, State.withRestOf_views s (exec_effect h).cfg_eq, rfl, rfl⟩

end Sys2Proof.Machine

/-! The statements about the state (spec/10_state.md): construction (R45 to R51), the invariants and their preservation
(R26, R30 to R33, R97), and which commands write which part of the state (R24, R27, R31 to R35). -/
namespace Sys2Proof

/-- The parameters the spec admits (R8, D2). -/
theorem Config.wf_iff {c : Config} : c.wf = true ↔ 1 ≤ c.nDev ∧ c.nDev ≤ 255 ∧ c.nTmr ≤ 255 := by
  simp only [Config.wf, Bool.and_eq_true, decide_eq_true_eq, and_assoc]

/-! ### What a legal command word carries -/

theorem unlessReserved_eq_ok {op : Nat} {reservedZero : Bool} {i j : Instr} :
    unlessReserved op reservedZero i = .ok j ↔ reservedZero = true ∧ i = j := by
  cases reservedZero <;> simp [unlessReserved]

/-- The operands of a decoded command fit their widths, since each is a field of the word, or the part of a field that its
reserved bits leave (R8, R94, R95). -/
theorem decodeFields_wf {f : Fields} {i : Instr} (ha : f.a < 256) (hb : f.b < 256) (hc : f.c < 256) (hd : f.d < 4294967296)
    (h : decodeFields f = .ok i) : i.wf = true := by
  unfold decodeFields at h
  split at h
  case h_25 => cases h
  all_goals
    obtain ⟨hreserved, rfl⟩ := unlessReserved_eq_ok.1 h
    simp only [Bool.and_eq_true, beq_iff_eq, decide_eq_true_eq] at hreserved
    simp [Instr.wf, lineOk_iff, indexOk_iff, pinOk_iff, durationOk_iff, ha, hb, hc, hd, hreserved]

/-- The operands of a legal command word fit their widths (R8, R94). -/
theorem decode_wf {w : CommandWord} {i : Instr} (h : decode w = .ok i) : i.wf = true :=
  decodeFields_wf (Nat.mod_lt _ (by decide)) (Nat.mod_lt _ (by decide)) (Nat.mod_lt _ (by decide)) (Nat.mod_lt _ (by decide)) h

end Sys2Proof

namespace Sys2Proof.Machine

variable {s t : State} {i : Instr}

/-! ### Construction -/

theorem construct_of_legal {nDev nTmr : Nat} (h : 1 ≤ nDev ∧ nDev ≤ 255 ∧ nTmr ≤ 255) :
    construct nDev nTmr true = .ok (State.fresh ⟨nDev, nTmr⟩) := by
  rw [construct, if_pos (Config.wf_iff.2 h), if_pos rfl]

/-- Settles O1: the store of a fresh state lists no byte, and an unlisted byte reads as zero. -/
theorem constructionClearsStatusBytes : Obligations.ConstructionClearsStatusBytes := by
  intro nDev nTmr h1 h2 h3
  exact ⟨State.fresh ⟨nDev, nTmr⟩, construct_of_legal ⟨h1, h2, h3⟩, fun _ _ => rfl⟩

/-- Settles O2: a fresh state lists no bank, slot or line, and the parameters of the reset state are legal. -/
theorem constructionLeavesResetState : Obligations.ConstructionLeavesResetState := by
  refine ⟨fun nDev nTmr h1 h2 h3 => ?_, construct_of_legal (by decide)⟩
  exact ⟨State.fresh ⟨nDev, nTmr⟩, construct_of_legal ⟨h1, h2, h3⟩, rfl, rfl, fun _ => rfl, fun _ => rfl, rfl⟩

/-- Empty tables and zero counters meet every clause of the invariant but the one on the parameters. -/
theorem State.fresh_inv {c : Config} (h : c.wf = true) : (State.fresh c).Inv where
  cfgOk := h
  sbOk := Table.wf_nil
  sbBound := by simp
  tile := trivial
  devTotal := rfl
  pinsTotal := rfl
  devBound := Nat.zero_le _
  bankLines := by simp
  traceLines := by simp
  tmrOk := Table.wf_nil
  tmrBound := by simp
  tmrStarted := by intro _ _ hcounting; cases hcounting
  lineOk := Table.wf_nil
  lineReplay := rfl
  resultOk := trivial

/-- Settles O4: every fresh state with legal parameters meets the invariant, the reset state among them. -/
theorem resetMeetsInvariant : Obligations.ResetMeetsInvariant :=
  ⟨State.fresh_inv (by decide), fun _ => State.fresh_inv⟩

/-! ### Every command keeps the invariant -/

theorem createEvents_line {data clock latch : Nat} {e : LineEvent} (h : e ∈ createEvents data clock latch) :
    e.line = data ∨ e.line = clock ∨ e.line = latch := by
  simp only [createEvents, List.mem_cons, List.not_mem_nil, or_false] at h
  obtain rfl | rfl | rfl | rfl | rfl | rfl := h <;> simp [LineEvent.line]

/-- A new bank starts where the active pins end, so it extends the tiling (R26), and its devices are added to the counters
(R30). -/
theorem State.Inv.allocate (h : s.Inv) {data clock latch count : Nat} (hcount : 1 ≤ count)
    (hcap : s.devUsed + count ≤ s.cfg.nDev) (hlines : (s.newBank data clock latch count).linesOk) :
    (s.allocate (s.newBank data clock latch count)).Inv := by
  have hdev := h.devTotal
  have hpins := h.pinsTotal
  exact { h with
    tile := by
      refine (banksTile_append 0 s.banks _).2 ⟨h.tile, hcount, ?_, ?_, trivial⟩
      · simp only [State.newBank]; omega
      · simp only [State.newBank]; omega
    devTotal := by simp [hdev]
    pinsTotal := by simp [hpins]; omega
    devBound := hcap
    bankLines := by simpa [or_imp, forall_and] using ⟨h.bankLines, hlines⟩ }

/-- The lines of an allocated bank fit their width (R8, R25). -/
theorem State.Inv.line_lt (h : s.Inv) {b : Bank} (hb : b ∈ s.banks) {l : Nat} (hl : l = b.data ∨ l = b.clock ∨ l = b.latch) :
    l < Config.lineBound := by
  obtain ⟨hdata, hclock, hlatch⟩ := h.bankLines b hb
  obtain rfl | rfl | rfl := hl <;> assumption

theorem State.Inv.idleTimer (h : s.Inv) {slot : Nat} (hs : slot < s.cfg.nTmr) : (s.setTimer slot .idle).Inv :=
  h.setTimer hs fun _ hidle => by cases hidle

/-- Every effect of a command that the host can present keeps the invariant. -/
theorem Effect.inv (he : Effect s i t) (h : s.Inv) (hwf : i.wf = true) : t.Inv := by
  cases he with
  | result _ r hr => exact h.setResult (hr h)
  | store _ m r _ hm hbound hr => exact (h.withStore (hm h.sbOk) (hbound h.sbBound)).setResult (hr h)
  | create data clock latch count hcount hcap =>
    simp only [Instr.wf, Bool.and_eq_true, lineOk_iff] at hwf
    obtain ⟨⟨⟨hdata, hclock⟩, hlatch⟩, -⟩ := hwf
    have hevents : ∀ e ∈ createEvents data clock latch, e.line < Config.lineBound := by
      intro e hmem
      obtain hl | hl | hl := createEvents_line hmem <;> rw [hl] <;> assumption
    have hbanks : s.banksUsed < 2 ^ 16 := by
      have hused := h.banksUsed_le
      have hpins := h.pinsTotal
      have hmax := h.pins_le
      omega
    exact ((h.emit hevents).allocate hcount hcap ⟨hdata, hclock, hlatch⟩).setResult hbanks
  | transfer _ es _ hes =>
    refine (h.emit fun e hmem => ?_).setResult trivial
    obtain ⟨b, hb, l, v, rfl, hl⟩ := hes e hmem
    exact h.line_lt hb hl
  | start slot now u hslot hu =>
    obtain ⟨hinv, hnow, hcfg⟩ := h.sample hu
    refine (hinv.setTimer (hcfg ▸ hslot) fun st hst => ?_).setResult trivial
    obtain rfl := Timer.counting.inj hst
    exact hnow ▸ BitVec.le_refl _
  | stop slot hslot => exact (h.idleTimer hslot).setResult trivial
  | elapsed slot duration first now u hslot ht hu =>
    obtain ⟨hinv, -, hcfg⟩ := h.sample hu
    exact (hinv.idleTimer (hcfg ▸ hslot)).setResult (by simp [Result.wf])
  | pending slot duration first now u hslot ht hu =>
    exact (h.sample hu).1.setResult (by simp [Result.wf])

/-- Settles O5: a legal word runs a command whose operands fit their widths, and every effect of such a command keeps the
invariant; an illegal word writes `RESULT` alone. -/
theorem stepKeepsInvariant : Obligations.StepKeepsInvariant := by
  intro s t h hstep
  obtain ⟨w, later, -, ⟨i, hdecode, hexec⟩ | ⟨e, -, rfl⟩⟩ := step_next hstep
  · exact (exec_effect hexec).inv (h.withCommands later) (decode_wf hdecode)
  · exact (h.withCommands later).setResult trivial

/-- Settles O10: the fetch finds no word. -/
theorem stepNeedsCommand : Obligations.StepNeedsCommand := by
  intro s h
  simp only [step, State.fetch_none.2 h]

/-! ### Which commands write which part of the state -/

/-- Settles O19: the effect that creates a bank is CREATE_BANK's alone and appends one bank; the others leave the table and
its counters. -/
theorem onlyCreateBankWritesBanks : Obligations.OnlyCreateBankWritesBanks := by
  intro i s t h
  have heffect := exec_effect h
  obtain ⟨hbanks, hdev, hpins⟩ | ⟨hcreate, b, hbanks, -, -⟩ := heffect.allocation
  · exact ⟨fun _ => ⟨hbanks, by simp only [State.views, State.banksUsed, heffect.cfg_eq, hbanks, hdev, hpins]⟩,
      fun _ => .inl hbanks⟩
  · exact ⟨fun hother => by simp [hcreate] at hother, fun _ => .inr ⟨b, hbanks⟩⟩

theorem State.sampleClock_timer {now : Instant} (h : s.sampleClock = some (now, t)) (slot : Nat) :
    t.timer slot = s.timer slot := by
  rw [State.sampleClock_rest h]; rfl

/-- A command leaves a slot as it is, or it is START_TIMER of that slot, or it is STOP_TIMER or IS_ELAPSED of that slot and
idles it (R32, R39). -/
theorem Effect.timer (he : Effect s i t) (h : s.Inv) (slot : Nat) :
    t.timer slot = s.timer slot ∨ i = .startTimer slot ∨
      (t.timer slot = .idle ∧ (i = .stopTimer slot ∨ ∃ duration, i = .isElapsed slot duration)) := by
  cases he with
  | result | store | create | transfer => exact .inl rfl
  | start written now u hs hu =>
    by_cases hslot : slot = written
    · exact .inr (.inl (by rw [hslot]))
    · exact .inl (by simp [(h.sample hu).1.timer_setTimer, hslot, State.sampleClock_timer hu])
  | stop written hs =>
    by_cases hslot : slot = written
    · exact .inr (.inr ⟨by simp [h.timer_setTimer, hslot], .inl (by rw [hslot])⟩)
    · exact .inl (by simp [h.timer_setTimer, hslot])
  | elapsed written duration first now u hs ht hu =>
    by_cases hslot : slot = written
    · exact .inr (.inr ⟨by simp [(h.sample hu).1.timer_setTimer, hslot], .inr ⟨duration, by rw [hslot]⟩⟩)
    · exact .inl (by simp [(h.sample hu).1.timer_setTimer, hslot, State.sampleClock_timer hu])
  | pending written duration first now u hs ht hu => exact .inl (by simp [State.sampleClock_timer hu])

/-- Settles O54: the three cases of `Effect.timer`. -/
theorem onlyStartTimerArmsSlot : Obligations.OnlyStartTimerArmsSlot := by
  intro i s t slot hinv h
  obtain hsame | hstart | ⟨hidle, hstop | ⟨duration, helapsed⟩⟩ := (exec_effect h).timer hinv slot
  · exact ⟨fun hwas _ => hsame.trans hwas, fun _ _ _ => hsame⟩
  · exact ⟨fun _ hne => absurd hstart hne, fun hne _ _ => absurd hstart hne⟩
  · exact ⟨fun _ _ => hidle, fun _ hne _ => absurd hstop hne⟩
  · exact ⟨fun _ _ => hidle, fun _ _ hne => absurd helapsed (hne duration)⟩

theorem State.sampleClock_lines {now : Instant} (h : s.sampleClock = some (now, t)) : t.trace = s.trace ∧ t.line = s.line := by
  rw [State.sampleClock_rest h]
  exact ⟨rfl, rfl⟩

theorem State.sampleClock_sb {now : Instant} (h : s.sampleClock = some (now, t)) : t.sb = s.sb := by
  rw [State.sampleClock_rest h]

/-- A command appends events to the trace, and the line image follows them; only CREATE_BANK and the transfers have any
(R33, R34). -/
theorem Effect.trace (he : Effect s i t) :
    ∃ es, t.trace = s.trace ++ es ∧ t.line = es.foldl applyEvent s.line ∧
      (i.isCreate = false → i.isTransfer = false → es = []) := by
  have unchanged (htrace : t.trace = s.trace) (hline : t.line = s.line) :
      ∃ es, t.trace = s.trace ++ es ∧ t.line = es.foldl applyEvent s.line ∧
        (i.isCreate = false → i.isTransfer = false → es = []) :=
    ⟨[], by simp [htrace], hline, fun _ _ => rfl⟩
  cases he with
  | result | store | stop => exact unchanged rfl rfl
  | create data clock latch => exact ⟨createEvents data clock latch, rfl, rfl, nofun⟩
  | transfer _ es hi => exact ⟨es, rfl, rfl, fun _ hother => by simp [hi] at hother⟩
  | start _ _ _ _ hu =>
    exact unchanged (State.sampleClock_lines hu).1 (State.sampleClock_lines hu).2
  | elapsed _ _ _ _ _ _ _ hu =>
    exact unchanged (State.sampleClock_lines hu).1 (State.sampleClock_lines hu).2
  | pending _ _ _ _ _ _ _ hu =>
    exact unchanged (State.sampleClock_lines hu).1 (State.sampleClock_lines hu).2

/-- Settles O57: the events of `Effect.trace`, none of them for another command. -/
theorem traceIsAppendOnly : Obligations.TraceIsAppendOnly := by
  intro i s t h
  obtain ⟨es, htrace, hline, hnone⟩ := (exec_effect h).trace
  refine ⟨⟨es, htrace.symm⟩, fun hcreate htransfer => ?_⟩
  obtain rfl := hnone hcreate htransfer
  exact ⟨by simpa using htrace, hline⟩

/-- Only the SET and INVERT commands write status bytes (R24). -/
theorem Effect.sb_eq (he : Effect s i t) (hi : i.writesStore = false) : t.sb = s.sb := by
  cases he with
  | result | create | transfer | stop => rfl
  | store _ m r hwrites => simp [hi] at hwrites
  | start _ _ _ _ hu => simpa using State.sampleClock_sb hu
  | elapsed _ _ _ _ _ _ _ hu => simpa using State.sampleClock_sb hu
  | pending _ _ _ _ _ _ _ hu => simpa using State.sampleClock_sb hu

/-- Settles O58: of the effects, only `Effect.store` writes status bytes. -/
theorem onlyStoreCommandsWriteBytes : Obligations.OnlyStoreCommandsWriteBytes :=
  fun _ _ _ h => (exec_effect h).sb_eq

/-! ### `RESULT` is read by no command -/

/-- The clock sample does not depend on `RESULT` and carries it along. -/
theorem State.sampleClock_setResult (r : Result) :
    (s.setResult r).sampleClock = s.sampleClock.map fun sample => (sample.1, sample.2.setResult r) := by
  obtain ⟨_, _, _, _, _, _, _, _, _, _, clock, last, _⟩ := s
  cases clock with
  | nil => rfl
  | cons now later =>
    by_cases hlaw : last ≤ now
    · simp [State.sampleClock, State.setResult, hlaw]
    · simp [State.sampleClock, State.setResult, hlaw]

/-- A command that samples the clock and then forgets the old `RESULT` does not depend on it. -/
theorem State.withSample_setResult {r : Result} {go : Instant → State → Host.Outcome State Fault Refusal}
    (hgo : ∀ now u, go now (u.setResult r) = go now u) : (s.setResult r).withSample go = s.withSample go := by
  simp only [State.withSample, State.sampleClock_setResult]
  cases s.sampleClock with
  | none => rfl
  | some sample => exact hgo sample.1 sample.2

theorem execStartTimer_setResult (slot : Nat) (r : Result) :
    execStartTimer slot (s.setResult r) = execStartTimer slot s := by
  unfold execStartTimer
  simp only [State.setResult_cfg]
  congr 1
  exact State.withSample_setResult fun _ _ => rfl

theorem execIsElapsed_setResult (slot duration : Nat) (r : Result) :
    execIsElapsed slot duration (s.setResult r) = execIsElapsed slot duration s := by
  unfold execIsElapsed
  simp only [State.setResult_cfg, State.setResult_timer]
  congr 1
  cases s.timer slot with
  | idle => rfl
  | counting start => exact State.withSample_setResult fun _ _ => rfl

/-- Settles O59: every command reads other fields only and ends by overwriting `RESULT`, which is plain where it keeps the
state until then; the two commands that sample the clock carry the old `RESULT` through the sample. -/
theorem resultIsReadByNoCommand : Obligations.ResultIsReadByNoCommand := by
  intro i s r
  cases i with
  | startTimer slot => exact execStartTimer_setResult slot r
  | isElapsed slot duration => exact execIsElapsed_setResult slot duration r
  | _ => rfl

end Sys2Proof.Machine

/-! The statements about the status bytes (spec/20_memory.md): no command accesses a byte that does not exist (R71), an
INVERT command undoes itself, and a SET command, a read, a query and STOP_TIMER are idempotent (R69). -/
namespace Sys2Proof.Machine

variable {s t u : State} {i : Instr}

/-! ### No command faults -/

/-- A command that samples the clock completes, or the presented sample is no run (U3). -/
theorem State.withSample_completes {go : Instant → State → Host.Outcome State Fault Refusal}
    (hgo : ∀ now u, ∃ t, go now u = .next t) :
    (∃ t, s.withSample go = .next t) ∨ (s.withSample go = .refused .clockWentBackwards ∧ ¬ s.ClockOk) := by
  by_cases hclock : s.ClockOk
  · obtain ⟨now, u, hu⟩ := hclock.sample
    rw [State.withSample_of hu]
    exact .inl (hgo now u)
  · exact .inr ⟨State.withSample_refused hclock, hclock⟩

theorem execCreateBank_completes (data clock latch count : Nat) : ∃ t, execCreateBank data clock latch count s = .next t := by
  unfold execCreateBank
  split <;> exact ⟨_, rfl⟩

theorem execGetBankFromPin_completes (p : Nat) : ∃ t, execGetBankFromPin p s = .next t := by
  unfold execGetBankFromPin
  split <;> exact ⟨_, rfl⟩

theorem State.Inv.transfer_completes (h : s.Inv) (first last : Nat) (order : BitOrder) :
    ∃ t, s.transfer first last order = .next t :=
  h.withRange_completes first last fun _ => ⟨_, rfl⟩

theorem State.Inv.execXferArray_completes (h : s.Inv) (order : BitOrder) : ∃ t, execXferArray order s = .next t := by
  unfold execXferArray
  split
  · exact ⟨_, rfl⟩
  · exact h.transfer_completes _ _ order

theorem execStopTimer_completes (slot : Nat) : ∃ t, execStopTimer slot s = .next t := by
  unfold execStopTimer
  split <;> exact ⟨_, rfl⟩

theorem execStartTimer_completes (slot : Nat) :
    (∃ t, execStartTimer slot s = .next t) ∨ (execStartTimer slot s = .refused .clockWentBackwards ∧ ¬ s.ClockOk) := by
  unfold execStartTimer
  split
  · exact .inl ⟨_, rfl⟩
  · exact State.withSample_completes fun _ _ => ⟨_, rfl⟩

theorem execIsElapsed_completes (slot duration : Nat) :
    (∃ t, execIsElapsed slot duration s = .next t) ∨
      (execIsElapsed slot duration s = .refused .clockWentBackwards ∧ ¬ s.ClockOk) := by
  unfold execIsElapsed
  split
  · exact .inl ⟨_, rfl⟩
  · split
    · exact .inl ⟨_, rfl⟩
    · refine State.withSample_completes fun now u => ?_
      split <;> exact ⟨_, rfl⟩

/-- From a sound state every command completes, unless it samples a clock that goes back (R71, U2, U3). -/
theorem State.Inv.exec_completes (h : s.Inv) (i : Instr) :
    (∃ t, exec i s = .next t) ∨ (exec i s = .refused .clockWentBackwards ∧ ¬ s.ClockOk) := by
  cases i with
  | createBank data clock latch count => exact .inl (execCreateBank_completes data clock latch count)
  | setArrayPin p | invertArrayPin p | readArrayPin p => exact .inl (h.withPin_completes p)
  | getBankFromPin p => exact .inl (execGetBankFromPin_completes p)
  | numPinsInBank => exact .inl (State.withBank_completes fun _ _ => ⟨_, rfl⟩)
  | setBankPin | invertBankPin | readBankPin => exact .inl (State.withBank_completes fun _ _ => h.withPin_completes _)
  | setBank k | invertBank k => exact .inl (h.withRange_completes k k fun _ => ⟨_, rfl⟩)
  | setBanks first last | invertBanks first last => exact .inl (h.withRange_completes first last fun _ => ⟨_, rfl⟩)
  | setBankSipo k d | invertBankSipo k d | readBankSipo k d =>
    rw [exec]
    exact .inl (h.withDevice_completes k d fun _ => ⟨_, rfl⟩)
  | setAllArrayPins | invertAllArrayPins => exact .inl ⟨_, rfl⟩
  | xferBanks first last order => exact .inl (h.transfer_completes first last order)
  | xferBank k order => exact .inl (h.transfer_completes k k order)
  | xferArray order => exact .inl (h.execXferArray_completes order)
  | startTimer slot => exact execStartTimer_completes slot
  | stopTimer slot => exact .inl (execStopTimer_completes slot)
  | isElapsed slot duration => exact execIsElapsed_completes slot duration

theorem State.Inv.exec_ne_fault (h : s.Inv) (i : Instr) (f : Fault) : exec i s ≠ .fault f := by
  obtain ⟨t, ht⟩ | ⟨hrefused, -⟩ := h.exec_completes i
  · simp [ht]
  · simp [hrefused]

/-- Settles O6: taking the command word keeps the invariant, under which no command faults; an illegal word ends in a
failure and no word in a refusal. -/
theorem stepNeverFaults : Obligations.StepNeverFaults := by
  intro s hinv f
  unfold step
  split
  · simp
  · rename_i w u hfetch
    obtain ⟨later, -, rfl⟩ := State.fetch_some hfetch
    split
    · exact (hinv.withCommands later).exec_ne_fault _ f
    · simp

/-! ### A run of bytes mapped twice -/

section
variable {m : Memory} {f g : Byte → Byte}

/-- A run put through `f` and then through `g` went through their composition. -/
theorem Memory.mapRun_mapRun (h : m.wf) (first n : Nat) :
    (m.mapRun f first n).mapRun g first n = m.mapRun (fun v => g (f v)) first n := by
  refine Memory.ext_read (Memory.wf_mapRun (Memory.wf_mapRun h first n) first n) (Memory.wf_mapRun h first n) fun j => ?_
  rw [Memory.read_mapRun (Memory.wf_mapRun h first n), Memory.read_mapRun h, Memory.read_mapRun h]
  by_cases hj : first ≤ j ∧ j < first + n
  · simp only [if_pos hj]
  · simp only [if_neg hj]

theorem Memory.read_mapRun_one (h : m.wf) (i : Nat) : (m.mapRun f i 1).read i = f (m.read i) := by
  rw [Memory.read_mapRun h, if_pos ⟨Nat.le_refl i, Nat.lt_succ_self i⟩]

theorem Memory.mapRun_of_forall_eq (h : m.wf) (hf : ∀ v, f v = v) (first n : Nat) : m.mapRun f first n = m := by
  refine Memory.ext_read (Memory.wf_mapRun h first n) h fun j => ?_
  rw [Memory.read_mapRun h, hf, ite_self]

/-- The bytes of banks that tile are one run (R26, R65). -/
theorem Memory.mapBanks_eq_mapRun (h : m.wf) {dev : Nat} {bs : List Bank} (htile : banksTile dev bs) :
    m.mapBanks f bs = m.mapRun f dev (totalDevices bs) := by
  refine Memory.ext_read (Memory.wf_mapBanks h bs) (Memory.wf_mapRun h dev _) fun j => ?_
  rw [Memory.read_mapBanks h htile, Memory.read_mapRun h]

end

/-- The last write to a bit counts. -/
theorem setBit_setBit (v : Byte) {j : Nat} (hj : j < 8) (a b : Level) : setBit (setBit v j a) j b = setBit v j b := by
  refine BitVec.eq_of_getLsbD_eq fun n _ => ?_
  rw [getLsbD_setBit _ _ _ _ hj, getLsbD_setBit _ _ _ _ hj, getLsbD_setBit _ _ _ _ hj]
  by_cases hn : n = j
  · rw [if_pos hn, if_pos hn]
  · rw [if_neg hn, if_neg hn, if_neg hn]

/-- Writing back what a bit holds changes nothing. -/
theorem setBit_getLsbD (v : Byte) {j : Nat} (hj : j < 8) : setBit v j (v.getLsbD j) = v := by
  refine BitVec.eq_of_getLsbD_eq fun n _ => ?_
  rw [getLsbD_setBit _ _ _ _ hj]
  by_cases hn : n = j
  · rw [if_pos hn, hn]
  · rw [if_neg hn]

/-- The byte with one bit flipped (R131). -/
def flipBit (j : Nat) (v : Byte) : Byte := setBit v j (!v.getLsbD j)

theorem getLsbD_flipBit {j : Nat} (hj : j < 8) (v : Byte) : (flipBit j v).getLsbD j = !v.getLsbD j := by
  rw [flipBit, getLsbD_setBit _ _ _ _ hj, if_pos rfl]

theorem flipBit_flipBit {j : Nat} (hj : j < 8) (v : Byte) : flipBit j (flipBit j v) = v := by
  rw [flipBit, getLsbD_flipBit hj, Bool.not_not, flipBit, setBit_setBit _ hj, setBit_getLsbD _ hj]

/-! ### The guards look at neither the store nor `RESULT` -/

/-- The state `s` with the store `m` and the result `r`. -/
def State.stored (s : State) (m : Memory) (r : Result) : State := { s with sb := m, result := r }

section
variable {m : Memory} {r : Result}

@[simp] theorem State.stored_cfg : (s.stored m r).cfg = s.cfg := rfl
@[simp] theorem State.stored_sb : (s.stored m r).sb = m := rfl
@[simp] theorem State.stored_banks : (s.stored m r).banks = s.banks := rfl
@[simp] theorem State.stored_pinsActive : (s.stored m r).pinsActive = s.pinsActive := rfl

theorem State.Inv.withPin_stored (h : s.Inv) {p : Nat} (hp : p < s.pinsActive) {go : Host.Outcome State Fault Refusal} :
    (s.stored m r).withPin p go = go := by
  have hpins := h.pinsTotal
  have hdevs := h.devBound
  rw [State.withPin, State.stored_pinsActive, if_neg (by omega), State.withBytes_of]
  simp only [State.stored_cfg, pinByte]
  omega

theorem State.withBank_stored {k : Nat} {b : Bank} (hb : s.banks[k]? = some b) {go : Bank → Host.Outcome State Fault Refusal} :
    (s.stored m r).withBank k go = go b := State.withBank_some hb

theorem State.Inv.withDevice_stored (h : s.Inv) {k d : Nat} {b : Bank} (hb : s.banks[k]? = some b) (hd : d < b.count)
    {go : Nat → Host.Outcome State Fault Refusal} : (s.stored m r).withDevice k d go = go (b.deviceByte d) := by
  have hbytes := h.bank_bytes hb
  rw [State.withDevice, State.withBank_stored hb, if_neg (by omega), State.withBytes_of]
  simp only [State.stored_cfg, Bank.deviceByte]
  omega

theorem State.Inv.withRange_stored (h : s.Inv) {first last : Nat} (hvalid : first ≤ last ∧ last < s.banksUsed)
    {go : List Bank → Host.Outcome State Fault Refusal} :
    (s.stored m r).withRange first last go = go (s.bankRange first last) := by
  have hbytes : ∀ b ∈ s.bankRange first last, s.hasBytes b.base b.count = true := by
    intro b hb
    obtain ⟨k, hk⟩ := List.mem_iff_getElem?.1 (State.mem_bankRange hb)
    exact decide_eq_true (h.bank_bytes hk)
  exact (if_pos (State.rangeValid_iff.2 hvalid)).trans (if_pos (List.all_eq_true.2 hbytes))

end

/-! ### A SET or INVERT command maps a run of bytes -/

/-- From `s`, with whatever store and `RESULT`, the command puts one run of bytes through `f`, answers by the store it
leaves, and changes nothing else. The run is empty where the command fails or is a silent no-op. -/
def MapsBytes (i : Instr) (s : State) (f : Byte → Byte) : Prop :=
  ∃ (first n : Nat) (answer : Memory → Result), ∀ m r, m.wf →
    exec i (s.stored m r) = .next (s.stored (m.mapRun f first n) (answer (m.mapRun f first n)))

section
variable {f : Byte → Byte}

/-- A command that maps bytes by an involution restores the store when it is run twice. -/
theorem MapsBytes.sb_twice (h : MapsBytes i s f) (hf : ∀ v, f (f v) = v) (hwf : s.sb.wf) (hs : exec i s = .next t)
    (ht : exec i t = .next u) : u.sb = s.sb := by
  obtain ⟨first, n, answer, hrun⟩ := h
  obtain rfl := Host.Outcome.next.inj (hs.symm.trans (hrun s.sb s.result hwf))
  obtain rfl := Host.Outcome.next.inj (ht.symm.trans (hrun _ _ (Memory.wf_mapRun hwf first n)))
  exact (Memory.mapRun_mapRun hwf first n).trans (Memory.mapRun_of_forall_eq hwf hf first n)

/-- A command that maps bytes by an idempotent function is idempotent, its answer included. -/
theorem MapsBytes.again (h : MapsBytes i s f) (hf : ∀ v, f (f v) = f v) (hwf : s.sb.wf) (hs : exec i s = .next t) :
    exec i t = .next t := by
  obtain ⟨first, n, answer, hrun⟩ := h
  obtain rfl := Host.Outcome.next.inj (hs.symm.trans (hrun s.sb s.result hwf))
  have hsame : (s.sb.mapRun f first n).mapRun f first n = s.sb.mapRun f first n := by
    simp only [Memory.mapRun_mapRun hwf, hf]
  rw [hrun _ _ (Memory.wf_mapRun hwf first n), hsame]

/-- A command that leaves the store and always answers the same maps an empty run. -/
theorem mapsBytes_of_answer {a : Result} (h : ∀ m r, exec i (s.stored m r) = .next (s.stored m a)) : MapsBytes i s f :=
  ⟨0, 0, fun _ => a, fun m r _ => h m r⟩

theorem MapsBytes.congr {j : Instr} (h : MapsBytes j s f) (hexec : ∀ m r, exec i (s.stored m r) = exec j (s.stored m r)) :
    MapsBytes i s f := by
  simpa only [MapsBytes, hexec] using h

end

theorem State.Inv.setArrayPin_mapsBytes (h : s.Inv) (p : Nat) (level : Level) :
    MapsBytes (.setArrayPin p level) s (setBit · (pinBit p) level) := by
  by_cases hp : p < s.pinsActive
  · exact ⟨pinByte p, 1, fun _ => .okVal p, fun _ _ _ => h.withPin_stored hp⟩
  · exact mapsBytes_of_answer fun _ _ => State.withPin_inactive (Nat.le_of_not_lt hp)

/-- The answer of INVERT_ARRAY_PIN is the level that the pin then has (R131). -/
theorem State.Inv.invertArrayPin_mapsBytes (h : s.Inv) (p : Nat) :
    MapsBytes (.invertArrayPin p) s (flipBit (pinBit p)) := by
  by_cases hp : p < s.pinsActive
  · refine ⟨pinByte p, 1, fun m => .okVal (levelNat ((m.read (pinByte p)).getLsbD (pinBit p))), fun m r hm => ?_⟩
    simp only [Memory.read_mapRun_one hm, getLsbD_flipBit (pinBit_lt p)]
    exact h.withPin_stored hp
  · exact mapsBytes_of_answer fun _ _ => State.withPin_inactive (Nat.le_of_not_lt hp)

/-- The bytes of a valid bank range are one run; a malformed range has none (R65, R152, R153). -/
theorem State.Inv.mapBankRange_mapRun (h : s.Inv) (first last : Nat) (f : Byte → Byte) :
    ∃ start n, ∀ m r, m.wf → (s.stored m r).mapBankRange first last f = .next (s.stored (m.mapRun f start n) .okUnit) := by
  by_cases hvalid : first ≤ last ∧ last < s.banksUsed
  · obtain ⟨dev, htile⟩ : ∃ dev, banksTile dev (s.bankRange first last) :=
      ⟨_, banksTile_take (banksTile_drop h.tile first) _⟩
    refine ⟨dev, totalDevices (s.bankRange first last), fun m r hm => ?_⟩
    rw [State.mapBankRange, h.withRange_stored hvalid, ← Memory.mapBanks_eq_mapRun hm htile]
    rfl
  · exact ⟨0, 0, fun m r _ => State.withRange_invalid hvalid⟩

theorem State.Inv.setBanks_mapsBytes (h : s.Inv) (first last : Nat) (level : Level) :
    MapsBytes (.setBanks first last level) s fun _ => fill level := by
  obtain ⟨start, n, hrun⟩ := h.mapBankRange_mapRun first last fun _ => fill level
  exact ⟨start, n, fun _ => .okUnit, hrun⟩

theorem State.Inv.invertBanks_mapsBytes (h : s.Inv) (first last : Nat) :
    MapsBytes (.invertBanks first last) s fun v => ~~~v := by
  obtain ⟨start, n, hrun⟩ := h.mapBankRange_mapRun first last fun v => ~~~v
  exact ⟨start, n, fun _ => .okUnit, hrun⟩

/-- A command that puts one device's byte through `f` and answers the byte it then holds (R155, R156). -/
theorem State.Inv.mapsBytes_of_device (h : s.Inv) {k d : Nat} {f : Byte → Byte}
    (hexec : ∀ m r, exec i (s.stored m r) = (s.stored m r).withDevice k d fun j =>
      State.succeed (s.stored (m.write j (f (m.read j))) r) (f (m.read j)).toNat) : MapsBytes i s f := by
  obtain hk | ⟨b, hb⟩ := s.bank_or_none k
  · exact mapsBytes_of_answer fun m r => (hexec m r).trans (State.withBank_none hk)
  · by_cases hd : d < b.count
    · refine ⟨b.deviceByte d, 1, fun m => .okVal (m.read (b.deviceByte d)).toNat, fun m r hm => ?_⟩
      simp only [hexec, h.withDevice_stored hb hd, Memory.read_mapRun_one hm]
      rfl
    · exact mapsBytes_of_answer fun m r =>
        (hexec m r).trans (State.withDevice_beyond (s := s.stored m r) hb (Nat.le_of_not_lt hd))

/-- Every INVERT command maps its bytes by an involution: the flip of a bit, or the complement. -/
theorem State.Inv.invert_mapsBytes (h : s.Inv) (hi : i.isInvert = true) : ∃ f, (∀ v, f (f v) = v) ∧ MapsBytes i s f := by
  cases i with
  | invertArrayPin p => exact ⟨_, flipBit_flipBit (pinBit_lt p), h.invertArrayPin_mapsBytes p⟩
  | invertBankPin k r =>
    obtain hk | ⟨b, hb⟩ := s.bank_or_none k
    · exact ⟨id, fun _ => rfl, mapsBytes_of_answer fun _ _ => State.withBank_none hk⟩
    · exact ⟨_, flipBit_flipBit (pinBit_lt _),
        (h.invertArrayPin_mapsBytes (b.absPin r)).congr fun _ _ => State.withBank_stored hb⟩
  | invertBank k => exact ⟨_, complement_complement, (h.invertBanks_mapsBytes k k).congr fun _ _ => rfl⟩
  | invertBanks first last => exact ⟨_, complement_complement, h.invertBanks_mapsBytes first last⟩
  | invertBankSipo k d => exact ⟨_, complement_complement, h.mapsBytes_of_device fun _ _ => rfl⟩
  | invertAllArrayPins => exact ⟨_, complement_complement, 0, s.cfg.nDev, fun _ => .okUnit, fun _ _ _ => rfl⟩
  | _ => cases hi

/-- Settles O38: an INVERT command maps a run of bytes by an involution, and its second run maps the same bytes. -/
theorem invertTwiceRestoresStore : Obligations.InvertTwiceRestoresStore := by
  intro i s t u hinv hi hs ht
  obtain ⟨f, hf, hmaps⟩ := hinv.invert_mapsBytes hi
  exact hmaps.sb_twice hf hinv.sbOk hs ht

/-! ### Commands that are idempotent -/

/-- Every SET command maps its bytes by an idempotent function: the set of a bit, or a constant. -/
theorem State.Inv.set_mapsBytes (h : s.Inv) (hi : i.isIdempotent = true) (hstore : i.writesStore = true) :
    ∃ f, (∀ v, f (f v) = f v) ∧ MapsBytes i s f := by
  cases i with
  | setArrayPin p level =>
    exact ⟨_, fun v => setBit_setBit v (pinBit_lt p) level level, h.setArrayPin_mapsBytes p level⟩
  | setBankPin k r level =>
    obtain hk | ⟨b, hb⟩ := s.bank_or_none k
    · exact ⟨id, fun _ => rfl, mapsBytes_of_answer fun _ _ => State.withBank_none hk⟩
    · exact ⟨_, fun v => setBit_setBit v (pinBit_lt _) level level,
        (h.setArrayPin_mapsBytes (b.absPin r) level).congr fun _ _ => State.withBank_stored hb⟩
  | setBank k level => exact ⟨fun _ => fill level, fun _ => rfl, (h.setBanks_mapsBytes k k level).congr fun _ _ => rfl⟩
  | setBanks first last level => exact ⟨fun _ => fill level, fun _ => rfl, h.setBanks_mapsBytes first last level⟩
  | setBankSipo k d value => exact ⟨fun _ => value, fun _ => rfl, h.mapsBytes_of_device fun _ _ => rfl⟩
  | setAllArrayPins level =>
    exact ⟨fun _ => fill level, fun _ => rfl, 0, s.cfg.nDev, fun _ => .okUnit, fun _ _ _ => rfl⟩
  | readArrayPin | readBankPin | readBankSipo | getBankFromPin | numPinsInBank | stopTimer => cases hstore
  | _ => cases hi

/-- A command that wrote `RESULT` alone does the same again, since no command reads it (R35). -/
theorem exec_again_of_setResult {r : Result} (h : exec i s = .next (s.setResult r)) :
    exec i (s.setResult r) = .next (s.setResult r) :=
  (resultIsReadByNoCommand i s r).trans h

theorem stopTimer_again {slot : Nat} (hinv : s.Inv) (h : exec (.stopTimer slot) s = .next t) :
    exec (.stopTimer slot) t = .next t := by
  cases exec_effect h with
  | result => exact exec_again_of_setResult h
  | store _ _ _ hwrites => cases hwrites
  | transfer _ _ hsends => cases hsends
  | stop _ hslot =>
    refine (if_neg (Nat.not_le.2 hslot)).trans ?_
    exact congrArg (fun slots => State.done { s with tmr := slots }) (Table.put_put hinv.tmrOk slot .idle)

/-- A command that creates no bank, writes no status byte, transfers nothing and is no timer command writes `RESULT` alone:
the reads and queries (R132, R135 to R137, R157). -/
theorem Effect.of_read (he : Effect s i t) (hcreate : i.isCreate = false) (hstore : i.writesStore = false)
    (htransfer : i.isTransfer = false) (htimer : i.isTimer = false) : ∃ r, t = s.setResult r := by
  cases he with
  | result _ r => exact ⟨r, rfl⟩
  | store _ _ _ hwrites => simp [hstore] at hwrites
  | create => cases hcreate
  | transfer _ _ hsends => simp [htransfer] at hsends
  | start | stop | elapsed | pending => cases htimer

theorem read_again (hcreate : i.isCreate = false) (hstore : i.writesStore = false) (htransfer : i.isTransfer = false)
    (htimer : i.isTimer = false) (h : exec i s = .next t) : exec i t = .next t := by
  obtain ⟨r, rfl⟩ := (exec_effect h).of_read hcreate hstore htransfer htimer
  exact exec_again_of_setResult h

/-- Settles O39: a SET command maps the same run of bytes again by an idempotent function, a read or query writes `RESULT`
alone, and a stopped slot is idle. -/
theorem idempotentCommands : Obligations.IdempotentCommands := by
  intro i s t hinv hi h
  by_cases hstore : i.writesStore = true
  · obtain ⟨f, hf, hmaps⟩ := hinv.set_mapsBytes hi hstore
    exact hmaps.again hf hinv.sbOk h
  · cases i with
    | stopTimer => exact stopTimer_again hinv h
    | readArrayPin | readBankPin | readBankSipo | getBankFromPin | numPinsInBank => exact read_again rfl rfl rfl rfl h
    | setArrayPin | setBankPin | setBank | setBanks | setBankSipo | setAllArrayPins => exact absurd rfl hstore
    | _ => cases hi

end Sys2Proof.Machine

/-! The statements about the encoding (spec/30_encoding.md): the decoder and the encoder of R93 to R96 and the opcode table
of R94, an illegal word (R96), the result word (R97) and the text form (R101, R102). -/
namespace Sys2Proof.Laws

/-- The fields of every well-formed command fit their widths, command by command. -/
theorem OpcodeHome.every : ∀ i, OpcodeHome.Statement i
  | .createBank data clock latch count => OpcodeHome.createBank data clock latch count
  | .setArrayPin p level => OpcodeHome.setArrayPin p level
  | .invertArrayPin p => OpcodeHome.invertArrayPin p
  | .readArrayPin p => OpcodeHome.readArrayPin p
  | .getBankFromPin p => OpcodeHome.getBankFromPin p
  | .numPinsInBank k => OpcodeHome.numPinsInBank k
  | .setBankPin k r level => OpcodeHome.setBankPin k r level
  | .invertBankPin k r => OpcodeHome.invertBankPin k r
  | .readBankPin k r => OpcodeHome.readBankPin k r
  | .setBank k level => OpcodeHome.setBank k level
  | .invertBank k => OpcodeHome.invertBank k
  | .setBanks first last level => OpcodeHome.setBanks first last level
  | .invertBanks first last => OpcodeHome.invertBanks first last
  | .setBankSipo k d value => OpcodeHome.setBankSipo k d value
  | .invertBankSipo k d => OpcodeHome.invertBankSipo k d
  | .readBankSipo k d => OpcodeHome.readBankSipo k d
  | .setAllArrayPins level => OpcodeHome.setAllArrayPins level
  | .invertAllArrayPins => OpcodeHome.invertAllArrayPins
  | .xferBanks first last order => OpcodeHome.xferBanks first last order
  | .xferBank k order => OpcodeHome.xferBank k order
  | .xferArray order => OpcodeHome.xferArray order
  | .startTimer slot => OpcodeHome.startTimer slot
  | .stopTimer slot => OpcodeHome.stopTimer slot
  | .isElapsed slot duration => OpcodeHome.isElapsed slot duration

theorem opcodeOf_lt (i : Instr) : opcodeOf i < 2 ^ 8 := by
  cases i <;> simp [opcodeOf]

end Sys2Proof.Laws

namespace Sys2Proof

open Sys2Proof.Statements

/-! ### Fields and words -/

/-- Every field fits its width (R93). -/
structure Fields.Fit (f : Fields) : Prop where
  op : f.op < 2 ^ 8
  a : f.a < 2 ^ 8
  b : f.b < 2 ^ 8
  c : f.c < 2 ^ 8
  d : f.d < 2 ^ 32

theorem fieldsOf_fit (w : CommandWord) : (fieldsOf w).Fit where
  op := Nat.mod_lt _ (by decide)
  a := Nat.mod_lt _ (by decide)
  b := Nat.mod_lt _ (by decide)
  c := Nat.mod_lt _ (by decide)
  d := Nat.mod_lt _ (by decide)

theorem encodeFields_fit {i : Instr} (h : i.wf = true) : (encodeFields i).Fit := by
  obtain ⟨hop, ha, hb, hc, hd⟩ := Laws.OpcodeHome.every i h
  exact ⟨hop ▸ Laws.opcodeOf_lt i, ha, hb, hc, hd⟩

theorem fieldsOf_encode {i : Instr} (h : i.wf = true) : fieldsOf (encode i) = encodeFields i :=
  have hfit := encodeFields_fit h
  fieldsOf_wordOf hfit.op hfit.a hfit.b hfit.c hfit.d

/-! ### The decoder and the encoder on fields -/

theorem bitOfLevel_levelOfBit {n : Nat} (h : n < 2) : bitOfLevel (levelOfBit n) = n := by
  interval_cases n <;> rfl

theorem bitOfOrder_orderOfBit {n : Nat} (h : n < 2) : bitOfOrder (orderOfBit n) = n := by
  interval_cases n <;> rfl

/-- Each command's fields select its own row of the table, whose reserved parts they leave zero (R94). -/
theorem decodeFields_encodeFields {i : Instr} (h : i.wf = true) : decodeFields (encodeFields i) = .ok i := by
  cases i
  all_goals
    simp only [Instr.wf, Bool.and_eq_true, indexOk_iff, pinOk_iff] at h
    simp [encodeFields, decodeFields, unlessReserved_eq_ok, h, Nat.le_of_lt_succ (bitOfLevel_lt _),
      Nat.le_of_lt_succ (bitOfOrder_lt _)]

/-- The command of an accepted row has the row's fields back: its operands, and zero in the reserved parts (R94, R96). -/
theorem encodeFields_of_decodeFields {f : Fields} {i : Instr} (hfit : f.Fit) (h : decodeFields f = .ok i) :
    encodeFields i = f := by
  obtain ⟨op, a, b, c, d⟩ := f
  have hc : c % 256 = c := Nat.mod_eq_of_lt hfit.c
  unfold decodeFields at h
  split at h
  case h_25 => cases h
  all_goals
    rename_i hop
    obtain ⟨hreserved, rfl⟩ := unlessReserved_eq_ok.1 h
    simp only [Bool.and_eq_true, beq_iff_eq, decide_eq_true_eq] at hop hreserved
    simp [encodeFields, hop, hreserved, hc, bitOfLevel_levelOfBit, bitOfOrder_orderOfBit]

/-- Settles O11: the fields come back from the word, and the command from its fields. -/
theorem decodeOfEncode : Obligations.DecodeOfEncode := by
  intro i h
  rw [decode, fieldsOf_encode h, decodeFields_encodeFields h]

/-- Settles O12: the command's fields are those of the word, which give the word back. -/
theorem encodeOfDecode : Obligations.EncodeOfDecode := by
  intro w i h
  refine ⟨?_, decode_wf h⟩
  rw [encode, encodeFields_of_decodeFields (fieldsOf_fit w) h, wordOf_fieldsOf]

/-! ### The opcode table -/

/-- The fields of a word under the fields of a mask. -/
def Fields.land (f m : Fields) : Fields := ⟨f.op &&& m.op, f.a &&& m.a, f.b &&& m.b, f.c &&& m.c, f.d &&& m.d⟩

theorem fieldsOf_and (w m : CommandWord) : fieldsOf (w &&& m) = (fieldsOf w).land (fieldsOf m) := by
  simp only [fieldsOf, Fields.land, BitVec.toNat_and, Nat.and_div_two_pow, Nat.and_mod_two_pow]

theorem fieldsOf_inj {v w : CommandWord} : fieldsOf v = fieldsOf w ↔ v = w :=
  ⟨fun h => by rw [← wordOf_fieldsOf v, h, wordOf_fieldsOf], fun h => h ▸ rfl⟩

/-- A mask of the bits from `k` up to the width `n` is clear exactly below `2 ^ k`. -/
theorem land_highBits_eq_zero {n k x : Nat} (hk : k ≤ n) (hx : x < 2 ^ n) :
    x &&& (2 ^ (n - k) - 1) * 2 ^ k = 0 ↔ x < 2 ^ k := by
  have hlow : (x &&& (2 ^ (n - k) - 1) * 2 ^ k) % 2 ^ k = 0 := by
    rw [Nat.and_mod_two_pow, Nat.mul_mod_left, Nat.and_zero]
  have hhigh : (x &&& (2 ^ (n - k) - 1) * 2 ^ k) / 2 ^ k = x / 2 ^ k := by
    rw [Nat.and_div_two_pow, Nat.mul_div_cancel _ (Nat.two_pow_pos k)]
    refine Nat.and_two_pow_sub_one_of_lt_two_pow (Nat.div_lt_of_lt_mul ?_)
    rwa [← Nat.pow_add, Nat.add_sub_cancel' hk]
  rw [← Nat.div_eq_zero_iff_lt (x := x) (Nat.two_pow_pos k), ← hhigh, Nat.div_eq_zero_iff_lt (Nat.two_pow_pos k)]
  exact ⟨fun h => h ▸ Nat.two_pow_pos k, fun h => (Nat.mod_eq_of_lt h).symm.trans hlow⟩

/-- The opcode table as conditions on the fields: one line a row, in the order of the rows (R94). -/
def Fields.Legal (f : Fields) : Prop :=
  (f.op = 0x01 ∧ f.d < 256) ∨
  (f.op = 0x10 ∧ f.a = 0 ∧ f.b = 0 ∧ f.c < 2 ∧ f.d < 65536) ∨
  (f.op = 0x11 ∧ f.a = 0 ∧ f.b = 0 ∧ f.c = 0 ∧ f.d < 65536) ∨
  (f.op = 0x12 ∧ f.a = 0 ∧ f.b = 0 ∧ f.c = 0 ∧ f.d < 65536) ∨
  (f.op = 0x13 ∧ f.a = 0 ∧ f.b = 0 ∧ f.c = 0 ∧ f.d < 65536) ∨
  (f.op = 0x14 ∧ f.b = 0 ∧ f.c = 0 ∧ f.d = 0) ∨
  (f.op = 0x20 ∧ f.b = 0 ∧ f.c < 2 ∧ f.d < 65536) ∨
  (f.op = 0x21 ∧ f.b = 0 ∧ f.c = 0 ∧ f.d < 65536) ∨
  (f.op = 0x22 ∧ f.b = 0 ∧ f.c = 0 ∧ f.d < 65536) ∨
  (f.op = 0x30 ∧ f.b = 0 ∧ f.c < 2 ∧ f.d = 0) ∨
  (f.op = 0x31 ∧ f.b = 0 ∧ f.c = 0 ∧ f.d = 0) ∨
  (f.op = 0x32 ∧ f.c < 2 ∧ f.d = 0) ∨
  (f.op = 0x33 ∧ f.c = 0 ∧ f.d = 0) ∨
  (f.op = 0x40 ∧ f.d = 0) ∨
  (f.op = 0x41 ∧ f.c = 0 ∧ f.d = 0) ∨
  (f.op = 0x42 ∧ f.c = 0 ∧ f.d = 0) ∨
  (f.op = 0x50 ∧ f.a = 0 ∧ f.b = 0 ∧ f.c < 2 ∧ f.d = 0) ∨
  (f.op = 0x51 ∧ f.a = 0 ∧ f.b = 0 ∧ f.c = 0 ∧ f.d = 0) ∨
  (f.op = 0x60 ∧ f.c < 2 ∧ f.d = 0) ∨
  (f.op = 0x61 ∧ f.b = 0 ∧ f.c < 2 ∧ f.d = 0) ∨
  (f.op = 0x62 ∧ f.a = 0 ∧ f.b = 0 ∧ f.c < 2 ∧ f.d = 0) ∨
  (f.op = 0x70 ∧ f.b = 0 ∧ f.c = 0 ∧ f.d = 0) ∨
  (f.op = 0x71 ∧ f.b = 0 ∧ f.c = 0 ∧ f.d = 0) ∨
  (f.op = 0x72 ∧ f.b = 0 ∧ f.c = 0)

/-- The decoder accepts the fields of a row of the table and no others (R94, R96). -/
theorem decodeFields_ok_iff (f : Fields) : (∃ i, decodeFields f = .ok i) ↔ f.Legal := by
  unfold decodeFields
  split
  case h_25 => simp_all [Fields.Legal]
  all_goals
    rename_i hop
    simp [Fields.Legal, hop, unlessReserved_eq_ok, and_assoc, Nat.lt_succ_iff]

/-- A row's mask selects the opcode and the reserved bits, and its pattern has zero in the latter (R94). -/
theorem matchesRow_iff {f : Fields} (hfit : f.Fit) :
    (∃ row ∈ opcodeRows, f.land (fieldsOf row.mask) = fieldsOf row.pattern) ↔ f.Legal := by
  obtain ⟨op, a, b, c, d⟩ := f
  obtain ⟨hop, ha, hb, hc, hd⟩ := hfit
  have byte {x : Nat} (hx : x < 2 ^ 8) : x &&& 255 = x := Nat.and_two_pow_sub_one_of_lt_two_pow hx
  have hd0 : d &&& 4294967295 = d := Nat.and_two_pow_sub_one_of_lt_two_pow (n := 32) hd
  have hc1 : c &&& 254 = 0 ↔ c < 2 := land_highBits_eq_zero (n := 8) (k := 1) (by decide) hc
  have hd1 : d &&& 4294967040 = 0 ↔ d < 256 := land_highBits_eq_zero (n := 32) (k := 8) (by decide) hd
  have hd2 : d &&& 4294901760 = 0 ↔ d < 65536 := land_highBits_eq_zero (n := 32) (k := 16) (by decide) hd
  simp [opcodeRows, Fields.land, fieldsOf, Fields.Legal, byte hop, byte ha, byte hb, byte hc, hc1,
    hd0, hd1, hd2]

/-- Settles O13: both sides say that the fields of the word are those of a row of the table. -/
theorem decodeAcceptsOpcodeTable : Obligations.DecodeAcceptsOpcodeTable := by
  intro w
  simp only [decode, decodeFields_ok_iff, ← matchesRow_iff (fieldsOf_fit w), ← fieldsOf_and, fieldsOf_inj]

end Sys2Proof

namespace Sys2Proof.Machine

/-! ### An illegal word -/

/-- Settles O9: the word is taken, and its decoding chooses the arm of `step` that fails. -/
theorem stepRefusesIllegalWord : Obligations.StepRefusesIllegalWord := by
  intro s w later e hcommands hdecode
  simp only [step, State.fetch_cons hcommands, hdecode]
  rfl

/-! ### The result word -/

theorem Result.status_lt (r : Result) : r.status < 2 ^ 4 := by
  cases r with
  | okVal | okUnit => exact Nat.two_pow_pos 4
  | err kind => cases kind <;> decide

theorem Result.value_lt {r : Result} (h : r.wf) : r.value < 2 ^ 16 := by
  cases r with
  | okVal => exact h
  | okUnit | err => exact Nat.two_pow_pos 16

/-- No failure kind has the code of `OK` (R97, R201). -/
theorem Result.ok_iff (r : Result) : r.ok = true ↔ r.status = 0 := by
  cases r with
  | okVal | okUnit => exact iff_of_true rfl rfl
  | err kind => cases kind <;> decide

theorem Result.toNat_word {r : Result} (h : r.wf) : r.word.toNat = r.status * 2 ^ 28 + r.value := by
  have hstatus := r.status_lt
  have hvalue := r.value_lt h
  rw [Result.word, BitVec.toNat_ofNat]
  omega

theorem Result.toNat_extractLsb'_word {r : Result} (h : r.wf) (start len : Nat) :
    (r.word.extractLsb' start len).toNat = (r.status * 2 ^ 28 + r.value) / 2 ^ start % 2 ^ len := by
  rw [BitVec.extractLsb'_toNat, Result.toNat_word h, Nat.shiftRight_eq_div_pow]

/-- Settles O15: the value lies below bit 16 and the status above bit 27, so each field reads its own part. -/
theorem resultWordFields : Obligations.ResultWordFields := by
  intro r h
  have hvalue := r.value_lt h
  refine ⟨?status, ?zero, ?value, r.ok_iff⟩
  case status =>
    apply BitVec.eq_of_toNat_eq
    rw [Result.toNat_extractLsb'_word h, BitVec.toNat_ofNat]
    omega
  case zero =>
    apply BitVec.eq_of_toNat_eq
    rw [Result.toNat_extractLsb'_word h, show (0 : BitVec 12).toNat = 0 from rfl]
    omega
  case value =>
    apply BitVec.eq_of_toNat_eq
    rw [Result.toNat_extractLsb'_word h, BitVec.toNat_ofNat]
    omega

/-! ### Words and lines written out -/

/-- Settles O14: the decoder is run on each word. -/
theorem decodeSampleWords : Obligations.DecodeSampleWords := by
  unfold Obligations.DecodeSampleWords
  decide

/-- Settles O16: the assembler is run on each line. -/
theorem textFormsOfCommands : Obligations.TextFormsOfCommands := by
  unfold Obligations.TextFormsOfCommands
  decide

end Sys2Proof.Machine

/-! The statements about the Bank Allocator (spec/40_bank_allocator.md): what CREATE_BANK does and refuses (R120), and the
properties of the bank table that follow (R121). -/
namespace Sys2Proof.Machine

variable {s t : State} {i : Instr} {lines : List (Nat × LineImage)} {data clock latch count : Nat}

/-! ### The events that set up a line -/

/-- The two events by which CREATE_BANK sets up one of its lines: configured as an output, then driven low. -/
def setUpLine (l : Nat) : List LineEvent := [.cfg l, .wr l false]

theorem createEvents_eq_flatMap (data clock latch : Nat) :
    createEvents data clock latch = [data, clock, latch].flatMap setUpLine := rfl

theorem get_setUpLine (h : Table.wf LineImage.untouched lines) (k l : Nat) :
    Table.get LineImage.untouched ((setUpLine k).foldl applyEvent lines) l =
      if l = k then ⟨.output, .known false⟩ else Table.get LineImage.untouched lines l := by
  rw [setUpLine, List.foldl_cons, List.foldl_cons, List.foldl_nil, get_applyEvent (wf_applyEvent h _)]
  by_cases hl : l = k <;> simp [hl, LineEvent.line, LineEvent.apply, get_applyEvent h]

/-- Lines set up one after another, some perhaps more than once: each ends as an output at 0, every other as it was. -/
theorem get_setUpLines (h : Table.wf LineImage.untouched lines) (ls : List Nat) (l : Nat) :
    Table.get LineImage.untouched ((ls.flatMap setUpLine).foldl applyEvent lines) l =
      if l ∈ ls then ⟨.output, .known false⟩ else Table.get LineImage.untouched lines l := by
  induction ls generalizing lines with
  | nil => simp
  | cons k rest ih =>
    rw [List.flatMap_cons, List.foldl_append, ih (wf_applyEvents h _), get_setUpLine h]
    by_cases hrest : l ∈ rest <;> simp [hrest]

/-- Where lines are set up one after another, the write to a line comes after its configuration. -/
theorem cfg_mem_of_setUpLines {ls : List Nat} {before after : List LineEvent} {l : Nat}
    (h : ls.flatMap setUpLine = before ++ .wr l false :: after) : .cfg l ∈ before := by
  induction ls generalizing before with
  | nil => simp at h
  | cons k rest ih =>
    rw [List.flatMap_cons] at h
    match before with
    | [] => simp [setUpLine] at h
    | [e] =>
      obtain ⟨rfl, rfl, -⟩ : .cfg k = e ∧ k = l ∧ _ := by simpa [setUpLine] using h
      exact List.mem_singleton_self _
    | e :: e' :: before' =>
      obtain ⟨-, -, hrest⟩ : .cfg k = e ∧ .wr k false = e' ∧ _ := by simpa [setUpLine] using h
      exact List.mem_cons_of_mem _ (List.mem_cons_of_mem _ (ih hrest))

/-! ### CREATE_BANK -/

theorem exec_createBank_of_room (hcount : 1 ≤ count) (hroom : s.devUsed + count ≤ s.cfg.nDev) :
    exec (.createBank data clock latch count) s =
      .next (((s.emit (createEvents data clock latch)).allocate (s.newBank data clock latch count)).setResult
        (.okVal s.banksUsed)) :=
  if_neg (by omega)

theorem exec_createBank_refused (h : count = 0 ∨ s.cfg.nDev < s.devUsed + count) :
    exec (.createBank data clock latch count) s = .next (s.setResult (.err .eCreate)) :=
  if_pos h

/-- Settles O17: the model's own six events are the set-up of three lines, which gives their order and the lines' images. -/
theorem createBankAllocates : Obligations.CreateBankAllocates := by
  intro s data clock latch count hinv
  refine ⟨fun hcount hroom => ?_, exec_createBank_refused⟩
  refine ⟨_, createEvents data clock latch, exec_createBank_of_room hcount hroom, rfl, .refl _,
    fun _ _ _ hevents => cfg_mem_of_setUpLines (ls := [data, clock, latch]) hevents, fun l => ?_⟩
  rw [State.setResult_lineImage, State.lineImage, State.allocate_line, State.emit_line, createEvents_eq_flatMap,
    get_setUpLines hinv.lineOk]
  simp only [List.mem_cons, List.not_mem_nil, or_false, State.lineImage]

/-! ### The bank table -/

/-- No command removes, changes or reorders a descriptor (R121, R122). -/
theorem Effect.banks_prefix (h : Effect s i t) : s.banks <+: t.banks := by
  obtain ⟨hbanks, -, -⟩ | ⟨-, b, hbanks, -, -⟩ := h.allocation
  · exact hbanks ▸ List.prefix_rfl
  · exact hbanks ▸ List.prefix_append s.banks [b]

/-- NUM_PINS_IN_BANK on an allocated bank (R137). -/
theorem exec_numPinsInBank_of_bank {k : Nat} {b : Bank} (h : s.banks[k]? = some b) :
    exec (.numPinsInBank k) s = .next (s.setResult (.okVal (b.count * 8))) :=
  State.withBank_some h

/-- Settles O18: a step runs a command, which extends the table, or fails; the index that CREATE_BANK returns is that of the
bank it appended; and the tiling of the pins gives the size and place of every bank. -/
theorem bankAllocationProperties : Obligations.BankAllocationProperties := by
  refine ⟨fun s t hstep => ?keeps, fun s data clock latch count hcount hroom => ?pins, fun s hinv k b hb => ?ranges⟩
  case keeps =>
    obtain ⟨w, later, -, ⟨i, -, hexec⟩ | ⟨e, -, rfl⟩⟩ := step_next hstep
    · exact (exec_effect hexec).banks_prefix
    · exact List.prefix_rfl
  case pins =>
    have hnew : (s.banks ++ [s.newBank data clock latch count])[s.banksUsed]? = some (s.newBank data clock latch count) :=
      List.getElem?_concat_length
    exact ⟨_, s.banksUsed, exec_createBank_of_room hcount hroom, rfl,
      exec_numPinsInBank_of_bank (b := s.newBank data clock latch count) hnew⟩
  case ranges =>
    obtain ⟨hcount, -, hhigh, -⟩ := banksTile_bank hinv.tile hb
    exact ⟨by omega, by omega, fun b' hnext => banksTile_next hinv.tile hb hnext,
      fun j b' hlater hkj => banksTile_order hinv.tile hkj hb hlater⟩

end Sys2Proof.Machine


/-! The statements about the single-pin commands and the queries (spec/41_pin_addressing.md R130 to R137). A bank-relative
command is the absolute one at the translated pin, so its statement follows from that of the absolute command. -/
namespace Sys2Proof.Machine

open Sys2Proof.Statements

variable {s : State}

/-! ### Absolute pins -/

/-- Writing a pin and answering `v` is what the single-pin commands do to an active pin. -/
theorem pinWritten_setPin (h : s.sb.wf) (p : Nat) (level : Level) (v : Nat) :
    PinWritten s ((s.setPin p level).setResult (.okVal v)) p level v :=
  ⟨State.pin_setPin h p level, rfl⟩

theorem levelNat_not (v : Level) : levelNat (!v) = if v = true then 0 else 1 := by
  cases v <;> rfl

theorem exec_invertArrayPin_of_active (h : s.Inv) {p : Nat} (hp : p < s.pinsActive) :
    exec (.invertArrayPin p) s = .next ((s.setPin p (!s.pin p)).setResult (.okVal (levelNat (!s.pin p)))) :=
  h.withPin hp

/-- A state that differs from a sound one in the store and `RESULT` alone has the same active pins to invert. -/
theorem exec_invertArrayPin_stored_completes (h : s.Inv) {p : Nat} (hp : p < s.pinsActive) (m : Memory) (r : Result) :
    ∃ u, exec (.invertArrayPin p) (s.stored m r) = .next u :=
  ⟨_, h.withPin_stored hp⟩

/-- Settles O21: the pin guard lets an active pin through to the write of its one bit, and fails for any other pin. -/
theorem setArrayPinWritesOneBit : Obligations.SetArrayPinWritesOneBit := by
  intro s p level hinv
  exact ⟨fun hp => ⟨_, hinv.withPin hp, pinWritten_setPin hinv.sbOk p level p⟩, State.withPin_inactive⟩

/-- Settles O22: the write is that of the opposite level, and a second INVERT_ARRAY_PIN, for which the pin is still active,
restores the store as every INVERT command does (R69). -/
theorem invertArrayPinFlipsOneBit : Obligations.InvertArrayPinFlipsOneBit := by
  intro s p hinv
  refine ⟨fun hp => ?_, State.withPin_inactive⟩
  have ht := exec_invertArrayPin_of_active hinv hp
  obtain ⟨u, hu⟩ := exec_invertArrayPin_stored_completes hinv hp (s.setPin p (!s.pin p)).sb (.okVal (levelNat (!s.pin p)))
  refine ⟨_, u, ht, ?_, hu, invertTwiceRestoresStore _ s _ u hinv rfl ht hu⟩
  rw [levelNat_not]
  exact pinWritten_setPin hinv.sbOk p (!s.pin p) _

/-- Settles O23: the pin guard lets an active pin through to the read of its bit, and fails for any other pin. -/
theorem readArrayPinReturnsBit : Obligations.ReadArrayPinReturnsBit := by
  intro s p hinv
  exact ⟨hinv.withPin, State.withPin_inactive⟩

/-! ### Bank-relative pins -/

section
variable {k : Nat} {b : Bank}

/-- On an allocated bank SET_BANK_PIN is SET_ARRAY_PIN at the translated pin (R63, R133). -/
theorem exec_setBankPin_of_bank (hb : s.banks[k]? = some b) (r : Nat) (level : Level) :
    exec (.setBankPin k r level) s = exec (.setArrayPin (b.low + r) level) s :=
  State.withBank_some hb

/-- On an allocated bank INVERT_BANK_PIN is INVERT_ARRAY_PIN at the translated pin (R63, R134). -/
theorem exec_invertBankPin_of_bank (hb : s.banks[k]? = some b) (r : Nat) :
    exec (.invertBankPin k r) s = exec (.invertArrayPin (b.low + r)) s :=
  State.withBank_some hb

/-- On an allocated bank READ_BANK_PIN is READ_ARRAY_PIN at the translated pin (R63, R135). -/
theorem exec_readBankPin_of_bank (hb : s.banks[k]? = some b) (r : Nat) :
    exec (.readBankPin k r) s = exec (.readArrayPin (b.low + r)) s :=
  State.withBank_some hb

end

/-- Settles O24: the bank guard fails for an unallocated bank, and otherwise the command is SET_ARRAY_PIN. -/
theorem setBankPinWritesTranslatedPin : Obligations.SetBankPinWritesTranslatedPin := by
  intro s k r level hinv
  refine ⟨State.withBank_none, fun b hb => ?_⟩
  rw [exec_setBankPin_of_bank hb]
  exact setArrayPinWritesOneBit s (b.low + r) level hinv

/-- Settles O25: the bank guard fails for an unallocated bank, and otherwise the command is INVERT_ARRAY_PIN. -/
theorem invertBankPinFlipsTranslatedPin : Obligations.InvertBankPinFlipsTranslatedPin := by
  intro s k r hinv
  refine ⟨State.withBank_none, fun b hb => ?_⟩
  rw [exec_invertBankPin_of_bank hb]
  obtain ⟨hactive, hinactive⟩ := invertArrayPinFlipsOneBit s (b.low + r) hinv
  refine ⟨fun hp => ?_, hinactive⟩
  obtain ⟨t, -, ht, hwritten, -⟩ := hactive hp
  exact ⟨t, ht, hwritten⟩

/-- Settles O26: the bank guard fails for an unallocated bank, and otherwise the command is READ_ARRAY_PIN. -/
theorem readBankPinReturnsTranslatedBit : Obligations.ReadBankPinReturnsTranslatedBit := by
  intro s k r hinv
  refine ⟨State.withBank_none, fun b hb => ?_⟩
  rw [exec_readBankPin_of_bank hb]
  exact readArrayPinReturnsBit s (b.low + r) hinv

/-! ### The bank of a pin -/

theorem Bank.hasPin_iff {b : Bank} {p : Nat} : b.hasPin p = true ↔ b.low ≤ p ∧ p ≤ b.high := by
  simp [Bank.hasPin]

/-- No pin lies in two banks of a tiling (R26). -/
theorem banksTile_index_unique {dev : Nat} {bs : List Bank} (h : banksTile dev bs) {p j k : Nat} {b c : Bank}
    (hj : bs[j]? = some b) (hk : bs[k]? = some c) (hb : b.hasPin p = true) (hc : c.hasPin p = true) : j = k := by
  obtain ⟨hblow, hbhigh⟩ := Bank.hasPin_iff.1 hb
  obtain ⟨hclow, hchigh⟩ := Bank.hasPin_iff.1 hc
  obtain hlt | heq | hgt := Nat.lt_trichotomy j k
  · have := banksTile_order h hlt hj hk
    omega
  · exact heq
  · have := banksTile_order h hgt hk hj
    omega

/-- The active pins are exactly those that the scan finds a bank for (R26, R66). -/
theorem State.Inv.scanBanks_none_iff (h : s.Inv) {p : Nat} : scanBanks p s.banks 0 = none ↔ s.pinsActive ≤ p := by
  rw [scanBanks_none]
  constructor
  · intro hnone
    by_contra hp
    have hdevs := h.devTotal
    have hpins := h.pinsTotal
    obtain ⟨b, hb, hin⟩ := banksTile_cover h.tile (p := p) (by omega) (by omega)
    simp [hnone b hb] at hin
  · intro hp b hb
    obtain ⟨k, hk⟩ := List.mem_iff_getElem?.1 hb
    have hhigh := h.high_active hk
    rw [Bool.eq_false_iff, Ne, Bank.hasPin_iff]
    omega

theorem exec_getBankFromPin_of_some {p k : Nat} (h : scanBanks p s.banks 0 = some k) :
    exec (.getBankFromPin p) s = .next (s.setResult (.okVal k)) := by
  simp only [exec, execGetBankFromPin, h, State.succeed_eq]

theorem exec_getBankFromPin_of_none {p : Nat} (h : scanBanks p s.banks 0 = none) :
    exec (.getBankFromPin p) s = .next (s.setResult (.err .ePin)) := by
  simp only [exec, execGetBankFromPin, h, State.fail_eq]

/-- Settles O27: the banks tile the active pins, so the scan finds a bank for exactly those, and no other bank has the pin. -/
theorem getBankFromPinFindsUniqueBank : Obligations.GetBankFromPinFindsUniqueBank := by
  intro s p hinv
  refine ⟨fun hp => ?_, fun hp => exec_getBankFromPin_of_none (hinv.scanBanks_none_iff.2 hp)⟩
  obtain ⟨k, hscan⟩ : ∃ k, scanBanks p s.banks 0 = some k :=
    Option.ne_none_iff_exists'.1 fun hnone => Nat.not_le.2 hp (hinv.scanBanks_none_iff.1 hnone)
  obtain ⟨-, b, hb, hin⟩ := scanBanks_some hscan
  obtain ⟨hlow, hhigh⟩ := Bank.hasPin_iff.1 hin
  exact ⟨k, b, exec_getBankFromPin_of_some hscan, hb, hlow, hhigh, fun j b' hb' hlow' hhigh' =>
    banksTile_index_unique hinv.tile hb' hb (Bank.hasPin_iff.2 ⟨hlow', hhigh'⟩) hin⟩

/-! ### The size of a bank -/

/-- Settles O28: the tiling makes eight times the device count the size of the bank's range (R26). -/
theorem numPinsInBankCounts : Obligations.NumPinsInBankCounts := by
  intro s k hinv
  refine ⟨State.withBank_none, fun b hb => ⟨exec_numPinsInBank_of_bank hb, ?_⟩⟩
  obtain ⟨hcount, -, hhigh, -⟩ := banksTile_bank hinv.tile hb
  omega

end Sys2Proof.Machine


/-! The statements about whole banks, devices and the array (spec/42_bank_device_array.md R150 to R160). A bank or range
command maps the bytes of a run of banks, which is the run of their pins; a device command writes one byte; an array
command maps every reserved byte. -/
namespace Sys2Proof.Machine

open Sys2Proof.Statements

variable {s t : State} {k : Nat} {b : Bank}

/-! ### Banks and bank ranges -/

theorem State.lt_banksUsed (hb : s.banks[k]? = some b) : k < s.banksUsed :=
  (List.getElem?_eq_some_iff.1 hb).1

section
variable {first last : Nat} {bf bl : Bank} {f : Byte → Byte} {g : Level → Level}

/-- Mapping the bytes of a valid bank range maps the pins from the first bank's `low` to the last bank's `high` (R65). -/
theorem State.Inv.mapBankRange_pinsMapped (h : s.Inv) (hle : first ≤ last) (hf : s.banks[first]? = some bf)
    (hl : s.banks[last]? = some bl) (hfg : ∀ v i, i < 8 → (f v).getLsbD i = g (v.getLsbD i)) :
    ∃ t, s.mapBankRange first last f = .next t ∧ PinsMapped s t bf.low bl.high g :=
  ⟨_, h.withRange hle (State.lt_banksUsed hl), h.pin_mapBanks hle hf hl hfg, rfl⟩

/-- A malformed range is a silent no-op (R152, R204). -/
theorem State.mapBankRange_malformed (h : last < first ∨ s.banksUsed ≤ last) :
    s.mapBankRange first last f = .next { s with result := .okUnit } :=
  State.withRange_invalid (by omega)

/-- A state that differs from a sound one in the store and `RESULT` alone has the same bank ranges to map. -/
theorem State.Inv.mapBankRange_stored_completes (h : s.Inv) (hvalid : first ≤ last ∧ last < s.banksUsed) (m : Memory)
    (r : Result) : ∃ u, (s.stored m r).mapBankRange first last f = .next u :=
  ⟨_, h.withRange_stored hvalid⟩

end

/-- Settles O29: SET_BANK and INVERT_BANK are the range forms with one bank, whose range is malformed exactly where the bank
is not allocated. -/
theorem bankCommandsMapTheirPins : Obligations.BankCommandsMapTheirPins := by
  intro s k level hinv
  refine ⟨fun b hb => ⟨?set, ?invert⟩, fun hk => ⟨?setNoOp, ?invertNoOp⟩⟩
  case set => exact hinv.mapBankRange_pinsMapped (Nat.le_refl k) hb hb (getLsbD_fill_of level)
  case invert => exact hinv.mapBankRange_pinsMapped (Nat.le_refl k) hb hb getLsbD_complement
  case setNoOp => exact State.mapBankRange_malformed (.inr hk)
  case invertNoOp => exact State.mapBankRange_malformed (.inr hk)

/-- Settles O30: the bytes of a valid range are filled, so its pins are set; a malformed range is a no-op. -/
theorem setBanksFillsRange : Obligations.SetBanksFillsRange := by
  intro s first last level hinv
  exact ⟨fun bf bl hle hf hl => hinv.mapBankRange_pinsMapped hle hf hl (getLsbD_fill_of level), State.mapBankRange_malformed⟩

/-- Settles O31: the bytes of a valid range are complemented, so its pins are flipped; a second INVERT_BANKS, for which the
range is still valid, restores the store as every INVERT command does (R69). -/
theorem invertBanksFlipsRange : Obligations.InvertBanksFlipsRange := by
  intro s first last hinv
  refine ⟨fun bf bl hle hf hl => ?_, State.mapBankRange_malformed⟩
  obtain ⟨t, ht, hmapped⟩ := hinv.mapBankRange_pinsMapped hle hf hl getLsbD_complement
  have hstored : t = s.stored t.sb .okUnit := hmapped.2
  obtain ⟨u, hu⟩ : ∃ u, exec (.invertBanks first last) t = .next u :=
    hstored ▸ hinv.mapBankRange_stored_completes ⟨hle, State.lt_banksUsed hl⟩ t.sb .okUnit
  exact ⟨t, u, ht, hmapped, hu, invertTwiceRestoresStore (.invertBanks first last) s t u hinv rfl ht hu⟩

/-! ### A whole bank, pin by pin -/

theorem State.Inv.exec_inv (h : s.Inv) {i : Instr} (hwf : i.wf = true) (hexec : exec i s = .next t) : t.Inv :=
  (exec_effect hexec).inv h hwf

theorem State.Inv.pinOk_of_active (h : s.Inv) {p : Nat} (hp : p < s.pinsActive) : pinOk p = true := by
  have hpins := h.pins_le
  exact (pinOk_iff p).2 (by omega)

theorem State.Inv.indexOk_of_bank (h : s.Inv) (hb : s.banks[k]? = some b) : indexOk k = true := by
  have hk := State.lt_banksUsed hb
  have hbanks := h.banksUsed_le
  have hdevs := h.devBound
  obtain ⟨-, hmax, -⟩ := Config.wf_iff.1 h.cfgOk
  exact (indexOk_iff k).2 (by omega)

/-- From every sound state the command `i p` puts an active pin `p` through `g`, and no other pin. -/
def MapsPin (i : Nat → Instr) (g : Level → Level) : Prop :=
  ∀ s p, s.Inv → p < s.pinsActive → (i p).wf = true ∧ ∃ t v, exec (i p) s = .next t ∧ PinWritten s t p (g (s.pin p)) v

theorem setArrayPin_mapsPin (level : Level) : MapsPin (.setArrayPin · level) fun _ => level := by
  intro s p hinv hp
  obtain ⟨t, ht, hwritten⟩ := (setArrayPinWritesOneBit s p level hinv).1 hp
  exact ⟨hinv.pinOk_of_active hp, t, p, ht, hwritten⟩

theorem invertArrayPin_mapsPin : MapsPin .invertArrayPin fun v => !v := by
  intro s p hinv hp
  obtain ⟨t, -, ht, hwritten, -⟩ := (invertArrayPinFlipsOneBit s p hinv).1 hp
  exact ⟨hinv.pinOk_of_active hp, t, _, ht, hwritten⟩

/-- A single-pin command on each of some distinct active pins puts exactly these through its function. -/
theorem MapsPin.loop {i : Nat → Instr} {g : Level → Level} (hi : MapsPin i g) {pins : List Nat} (hinv : s.Inv)
    (hnodup : pins.Nodup) (hactive : ∀ p ∈ pins, p < s.pinsActive) :
    ∃ u, runCommands (pins.map i) s = .next u ∧ u.Inv ∧ ∀ q, u.pin q = if q ∈ pins then g (s.pin q) else s.pin q := by
  induction pins generalizing s with
  | nil => exact ⟨s, rfl, hinv, fun q => by simp⟩
  | cons p rest ih =>
    obtain ⟨hp, hrest⟩ := List.nodup_cons.1 hnodup
    obtain ⟨hwf, t, v, ht, hpins, hframe⟩ := hi s p hinv (hactive p List.mem_cons_self)
    have hsame : t.pinsActive = s.pinsActive := by rw [hframe]
    obtain ⟨u, hu, huinv, hupins⟩ := ih (hinv.exec_inv hwf ht) hrest
      fun q hq => hsame ▸ hactive q (List.mem_cons_of_mem p hq)
    refine ⟨u, ?_, huinv, fun q => ?_⟩
    · simp only [List.map_cons, runCommands, ht, hu]
    · rw [hupins, hpins]
      by_cases hq : q = p
      · simp [hq, hp]
      · simp [hq]

/-- The pins that a transfer of `BANK[k]` shifts out are those of its range (R26, R174). -/
theorem State.Inv.mem_pinOrder (h : s.Inv) (hb : s.banks[k]? = some b) {q : Nat} :
    q ∈ pinOrder .lsbFirst b ↔ b.low ≤ q ∧ q ≤ b.high := by
  obtain ⟨-, -, hhigh, -⟩ := banksTile_bank h.tile hb
  rw [pinOrder, List.mem_map]
  constructor
  · rintro ⟨j, hj, rfl⟩
    have hj := List.mem_range.1 hj
    omega
  · rintro ⟨hlow, hle⟩
    exact ⟨q - b.low, List.mem_range.2 (by omega), by omega⟩

theorem nodup_pinOrder (b : Bank) : (pinOrder .lsbFirst b).Nodup :=
  List.nodup_range.map fun _ _ => Nat.add_left_cancel

/-- A command that puts the pins of a bank through `g` leaves the store of the single-pin command on each, in any order. -/
theorem MapsPin.bank_loop {i : Nat → Instr} {g : Level → Level} (hi : MapsPin i g) {whole : Instr} {pins : List Nat}
    (hinv : s.Inv) (hb : s.banks[k]? = some b) (hperm : pins.Perm (pinOrder .lsbFirst b)) (hwf : whole.wf = true)
    (hwhole : ∃ t, exec whole s = .next t ∧ PinsMapped s t b.low b.high g) :
    ∃ t u, exec whole s = .next t ∧ runCommands (pins.map i) s = .next u ∧ u.sb = t.sb := by
  have hmem : ∀ q, q ∈ pins ↔ b.low ≤ q ∧ q ≤ b.high := fun q => hperm.mem_iff.trans (hinv.mem_pinOrder hb)
  obtain ⟨t, ht, htpins, -⟩ := hwhole
  obtain ⟨u, hu, huinv, hupins⟩ := hi.loop hinv (hperm.nodup_iff.2 (nodup_pinOrder b)) fun p hp =>
    Nat.lt_of_le_of_lt ((hmem p).1 hp).2 (hinv.high_active hb)
  exact ⟨t, u, ht, hu, huinv.sb_ext (hinv.exec_inv hwf ht) fun q => by rw [hupins, htpins, if_congr (hmem q) rfl rfl]⟩

/-- Settles O32: the bank command and the loop put the same pins through the same function, and the pins of a sound state
determine its store. -/
theorem bankCommandsEqualPinLoops : Obligations.BankCommandsEqualPinLoops := by
  intro s k b level pins hinv hb hperm
  obtain ⟨hset, hinvert⟩ := (bankCommandsMapTheirPins s k level hinv).1 b hb
  exact ⟨(setArrayPin_mapsPin level).bank_loop hinv hb hperm (hinv.indexOk_of_bank hb) hset,
    invertArrayPin_mapsPin.bank_loop hinv hb hperm (hinv.indexOk_of_bank hb) hinvert⟩

/-! ### One device -/

/-- Writing a byte and answering it is what the device commands do to a device of the bank (R155, R156). -/
theorem byteWritten_write (h : s.sb.wf) (i : Nat) (v : Byte) :
    ByteWritten s (State.setResult { s with sb := s.sb.write i v } (.okVal v.toNat)) i v :=
  ⟨Memory.read_write h i v, rfl⟩

/-- A bank starts at a byte boundary (R26). -/
theorem State.Inv.low_eq_base (h : s.Inv) (hb : s.banks[k]? = some b) : b.low = 8 * b.base := by
  obtain ⟨-, hlow, -, -⟩ := banksTile_bank h.tile hb
  simp only [Bank.base]
  omega

/-- The three cases of a command on one device, said once: a bad bank, a device of the bank, a bad device (R206). -/
theorem State.Inv.exec_device (h : s.Inv) {i : Instr} {d : Nat} {go : Nat → Host.Outcome State Fault Refusal}
    (hi : exec i s = s.withDevice k d go) :
    (s.banksUsed ≤ k → exec i s = .next { s with result := .err .eBank }) ∧
    (∀ b, s.banks[k]? = some b → (d < b.count → exec i s = go (b.deviceByte d)) ∧
      (b.count ≤ d → exec i s = .next { s with result := .err .eDevice })) :=
  ⟨fun hk => hi.trans (State.withBank_none hk), fun _ hb =>
    ⟨fun hd => hi.trans (h.withDevice hb hd), fun hd => hi.trans (State.withDevice_beyond hb hd)⟩⟩

/-- Settles O33: the device guard fails for a bad bank before a bad device, and otherwise leads to the write of the byte. -/
theorem setBankSipoWritesByte : Obligations.SetBankSipoWritesByte := by
  intro s k d value hinv
  obtain ⟨hbank, hdevice⟩ := hinv.exec_device (i := .setBankSipo k d value) (by rw [exec, execSetBankSipo])
  refine ⟨hbank, fun b hb => ⟨fun hd => ?_, (hdevice b hb).2⟩⟩
  exact ⟨_, (hdevice b hb).1 hd, byteWritten_write hinv.sbOk (b.deviceByte d) value⟩

/-- Settles O34: the device guard as for SET_BANK_SIPO, and the write of the complement of the byte that was held. -/
theorem invertBankSipoComplementsByte : Obligations.InvertBankSipoComplementsByte := by
  intro s k d hinv
  obtain ⟨hbank, hdevice⟩ := hinv.exec_device (i := .invertBankSipo k d) (by rw [exec, execInvertBankSipo])
  refine ⟨hbank, fun b hb => ⟨fun hd => ?_, (hdevice b hb).2⟩⟩
  exact ⟨_, (hdevice b hb).1 hd, byteWritten_write hinv.sbOk (b.deviceByte d) _⟩

/-- Settles O35: the device guard as for SET_BANK_SIPO, and the read of the byte; a bank starts at a byte boundary, so the
bits of device `d` are eight consecutive pins of the bank. -/
theorem readBankSipoReturnsByte : Obligations.ReadBankSipoReturnsByte := by
  intro s k d hinv
  obtain ⟨hbank, hdevice⟩ := hinv.exec_device (i := .readBankSipo k d) (by rw [exec, execReadBankSipo])
  refine ⟨hbank, fun b hb => ⟨fun hd => ?_, (hdevice b hb).2⟩⟩
  exact ⟨_, (hdevice b hb).1 hd, rfl, State.pin_device (hinv.low_eq_base hb) d⟩

/-! ### The whole array -/

/-- Mapping the run of all reserved bytes is what the array commands do (R158, R159). -/
theorem allBytesMapped_mapAllBytes (h : s.sb.wf) (f : Byte → Byte) :
    AllBytesMapped s ((s.mapAllBytes f).setResult .okUnit) f := by
  have hread : ∀ i, (s.sb.mapRun f 0 s.cfg.nDev).read i = if i < s.cfg.nDev then f (s.sb.read i) else s.sb.read i := by
    intro i
    simp [Memory.read_mapRun h]
  exact ⟨fun i hi => (hread i).trans (if_pos hi), fun i hi => (hread i).trans (if_neg (Nat.not_lt.2 hi)), rfl⟩

/-- Settles O36: every reserved byte is filled, and a SET command is idempotent (R69). -/
theorem setAllArrayPinsFillsStore : Obligations.SetAllArrayPinsFillsStore := by
  intro s level hinv
  exact ⟨_, rfl, allBytesMapped_mapAllBytes hinv.sbOk _, idempotentCommands (.setAllArrayPins level) s _ hinv rfl rfl⟩

/-- Settles O37: every reserved byte is complemented, and an INVERT command undoes itself (R69). -/
theorem invertAllArrayPinsComplementsStore : Obligations.InvertAllArrayPinsComplementsStore := by
  intro s hinv
  exact ⟨_, _, rfl, allBytesMapped_mapAllBytes hinv.sbOk _, rfl,
    invertTwiceRestoresStore .invertAllArrayPins s _ _ hinv rfl rfl rfl⟩

end Sys2Proof.Machine


/-! The statements about the Transfer Engine (spec/43_transfer_engine.md R170 to R182). A frame of a bank is the frame of a
list of levels, those of its pins in transfer order; what it does to the lines and to the attached devices follows from the
levels it writes to each line, by induction on that list. -/
namespace Sys2Proof.Machine

open Sys2Proof.Statements

variable {s t : State} {k : Nat} {b : Bank}

/-! ### A frame as the frame of its levels -/

/-- `FRAME` with the data levels given: latch low, `EMIT_BIT` of each level, latch high (R172, R175). -/
def frameOfLevels (b : Bank) (levels : List Level) : List LineEvent :=
  .wr b.latch false :: (levels.flatMap (emitBit b) ++ [.wr b.latch true])

/-- The levels of a bank's pins, in the order they are shifted out (R174). -/
def levelsShifted (s : State) (order : BitOrder) (b : Bank) : List Level := (pinOrder order b).map s.pin

theorem frameOfPins_eq_frameOfLevels (s : State) (order : BitOrder) (b : Bank) :
    frameOfPins s order b = frameOfLevels b (levelsShifted s order b) := by
  rw [frameOfLevels, levelsShifted, List.flatMap_map, frameOfPins, List.append_assoc]
  rfl

@[simp] theorem length_levelsShifted (s : State) (order : BitOrder) (b : Bank) :
    (levelsShifted s order b).length = 8 * b.count := by
  cases order <;> simp [levelsShifted, pinOrder]

theorem length_frameOfLevels (b : Bank) (levels : List Level) : (frameOfLevels b levels).length = 2 + 3 * levels.length := by
  have hbits : (levels.flatMap (emitBit b)).length = levels.length * 3 := by simp [List.length_flatMap, emitBit]
  simp only [frameOfLevels, List.length_cons, List.length_append, hbits, List.length_nil]
  omega

/-- From `high` down is from `low` up, reversed, since a bank has `count * 8` pins (R26). -/
theorem State.Inv.pinOrder_msbFirst (h : s.Inv) (hb : s.banks[k]? = some b) :
    pinOrder .msbFirst b = (pinOrder .lsbFirst b).reverse := by
  obtain ⟨-, -, hsize, -⟩ := banksTile_bank h.tile hb
  have hhigh : b.high = b.low + 8 * b.count - 1 := by omega
  rw [pinOrder, pinOrder, ← map_range_down, hhigh]

theorem State.Inv.levelsShifted_msbFirst (h : s.Inv) (hb : s.banks[k]? = some b) :
    levelsShifted s .msbFirst b = (levelsShifted s .lsbFirst b).reverse := by
  rw [levelsShifted, h.pinOrder_msbFirst hb, List.map_reverse, levelsShifted]

/-- The pin of a bank that is shifted out last (R180). -/
def lastPin : BitOrder → Bank → Nat
  | .msbFirst, b => b.low
  | .lsbFirst, b => b.high

theorem State.Inv.getLast?_levelsShifted (h : s.Inv) (hb : s.banks[k]? = some b) (order : BitOrder) :
    (levelsShifted s order b).getLast? = some (s.pin (lastPin order b)) := by
  obtain ⟨hcount, -, hhigh, -⟩ := banksTile_bank h.tile hb
  have hlast : (List.range (8 * b.count)).getLast? = some (8 * b.count - 1) := by
    rw [List.getLast?_range, if_neg (by omega)]
  have hup : b.low + (8 * b.count - 1) = b.high := by omega
  have hdown : b.high - (8 * b.count - 1) = b.low := by omega
  cases order with
  | lsbFirst => simp [levelsShifted, pinOrder, lastPin, hlast, hup]
  | msbFirst => simp [levelsShifted, pinOrder, lastPin, hlast, hdown]

/-- The nested loops over devices and bits are one loop over the bank's pins (R173, R174). -/
theorem State.Inv.frame_eq_frameOfPins (h : s.Inv) (hb : b ∈ s.banks) (order : BitOrder) :
    frame s.sb b order = frameOfPins s order b := by
  obtain ⟨k, hk⟩ := List.mem_iff_getElem?.1 hb
  have hbase := h.low_eq_base hk
  cases order with
  | lsbFirst =>
    rw [frame, frame_pins_lsbFirst hbase]
    rfl
  | msbFirst =>
    rw [frame, frame_pins_msbFirst hbase, frameOfPins, h.pinOrder_msbFirst hk]
    rfl

theorem State.Inv.frameOfPins_lines (h : s.Inv) (hb : b ∈ s.banks) {order : BitOrder} {e : LineEvent}
    (he : e ∈ frameOfPins s order b) : ∃ l v, e = .wr l v ∧ (l = b.data ∨ l = b.clock ∨ l = b.latch) :=
  frame_lines (h.frame_eq_frameOfPins hb order ▸ he)

/-! ### What a transfer emits -/

/-- The frames of some banks, one bank after another (R172). -/
def framesOf (s : State) (order : BitOrder) (bs : List Bank) : List LineEvent := bs.flatMap (frameOfPins s order)

/-- The state after a command that emits these events and answers `Ok()`. -/
def State.sent (s : State) (events : List LineEvent) : State := (s.emit events).setResult .okUnit

@[simp] theorem State.sent_trace (s : State) (events : List LineEvent) : (s.sent events).trace = s.trace ++ events := rfl

@[simp] theorem State.sent_lineImage (s : State) (events : List LineEvent) (l : Nat) :
    (s.sent events).lineImage l = Table.get LineImage.untouched (events.foldl applyEvent s.line) l := rfl

theorem emitted_sent (s : State) (events : List LineEvent) : Emitted s (s.sent events) events := ⟨rfl, rfl⟩

theorem State.transfer_malformed {first last : Nat} (order : BitOrder) (h : ¬ (first ≤ last ∧ last < s.banksUsed)) :
    s.transfer first last order = .next { s with result := .okUnit } :=
  State.withRange_invalid h

/-- A valid transfer emits the frames of its banks as lists of pins. -/
theorem State.Inv.transfer_sent (h : s.Inv) {first last : Nat} (order : BitOrder) (hle : first ≤ last)
    (hlt : last < s.banksUsed) :
    s.transfer first last order = .next (s.sent (framesOf s order (s.bankRange first last))) := by
  have hframes : (s.bankRange first last).flatMap (fun b => frame s.sb b order) = framesOf s order (s.bankRange first last) :=
    List.flatMap_congr fun b hb => h.frame_eq_frameOfPins (State.mem_bankRange hb) order
  rw [h.transfer_next order hle hlt, hframes, State.sent]

theorem State.Inv.exec_xferBank (h : s.Inv) (hb : s.banks[k]? = some b) (order : BitOrder) :
    exec (.xferBank k order) s = .next (s.sent (frameOfPins s order b)) := by
  have ht := h.transfer_sent order (Nat.le_refl k) (State.lt_banksUsed hb)
  rw [State.bankRange_single hb, framesOf, List.flatMap_singleton] at ht
  exact ht

theorem State.Inv.xferBank_next (h : s.Inv) (hb : s.banks[k]? = some b) {order : BitOrder}
    (ht : exec (.xferBank k order) s = .next t) : t = s.sent (frameOfPins s order b) :=
  Host.Outcome.next.inj (ht.symm.trans (h.exec_xferBank hb order))

/-- Settles O42: the range guard ends the command at once. -/
theorem xferMalformedRangeIsNoOp : Obligations.XferMalformedRangeIsNoOp :=
  fun _ _ _ order hrange => State.transfer_malformed order hrange

/-- Settles O40: XFER_BANK is the transfer of the range of one bank, which is malformed where the bank is not allocated. -/
theorem xferBankEmitsFrame : Obligations.XferBankEmitsFrame := by
  intro s k order hinv
  refine ⟨fun b hb => ⟨_, hinv.exec_xferBank hb order, emitted_sent s _⟩, fun hk => ?_⟩
  exact State.transfer_malformed order (by omega)

/-- A stretch of a list, read entry by entry. -/
theorem take_drop_eq_flatMap_range' {α : Type} (l : List α) (first n : Nat) :
    (l.drop first).take n = (List.range' first n).flatMap fun k => l[k]?.toList := by
  induction n generalizing first with
  | zero => rfl
  | succ n ih =>
    rw [List.range'_succ, List.flatMap_cons, ← ih]
    by_cases hfirst : first < l.length
    · rw [List.drop_eq_getElem_cons hfirst, List.take_succ_cons, List.getElem?_eq_getElem hfirst]
      rfl
    · have hend : l.length ≤ first := Nat.not_lt.1 hfirst
      simp [List.drop_eq_nil_of_le, hend, Nat.le_succ_of_le hend]

/-- Settles O41: the banks of the range are its indices read in order, and each gives its frame. -/
theorem xferBanksEmitsFramesInOrder : Obligations.XferBanksEmitsFramesInOrder := by
  intro s first last order hinv hle hlt
  refine ⟨_, hinv.transfer_sent order hle hlt, ?_⟩
  rw [← List.flatMap_assoc, ← take_drop_eq_flatMap_range']
  exact emitted_sent s _

/-- Settles O43: XFER_ARRAY is the transfer of the range of all banks, or no transfer where there is none. -/
theorem xferArrayEmitsEveryBank : Obligations.XferArrayEmitsEveryBank := by
  intro s order hinv
  refine ⟨_, ?_, emitted_sent s _⟩
  by_cases hnone : s.banksUsed = 0
  · have hbanks : s.banks = [] := List.eq_nil_of_length_eq_zero hnone
    rw [hbanks, exec, execXferArray, if_pos hnone]
    simp [State.sent, State.emit]
  · rw [exec, execXferArray, if_neg hnone, hinv.transfer_sent order (Nat.zero_le _) (by omega), State.bankRange_all, framesOf]

/-! ### The length of a transfer -/

theorem length_framesOf (s : State) (order : BitOrder) (bs : List Bank) :
    (framesOf s order bs).length = 2 * bs.length + 24 * totalDevices bs := by
  induction bs with
  | nil => rfl
  | cons b rest ih =>
    rw [framesOf, List.flatMap_cons, List.length_append, ← framesOf, ih, frameOfPins_eq_frameOfLevels, length_frameOfLevels,
      length_levelsShifted, List.length_cons, totalDevices_cons]
    omega

/-- Settles O44: a frame is two latch writes and three events a pin, and every event of a frame is a write. -/
theorem transferLength : Obligations.TransferLength := by
  intro s first last order t hinv hle hlt ht
  obtain rfl : t = _ := Host.Outcome.next.inj (ht.symm.trans (hinv.transfer_sent order hle hlt))
  have hrange : s.bankRange first last = (s.banks.drop first).take (last - first + 1) := by
    rw [State.bankRange, Nat.sub_add_comm hle]
  have hlength : ((s.banks.drop first).take (last - first + 1)).length = last - first + 1 := by
    have hbanks : last < s.banks.length := hlt
    rw [List.length_take, List.length_drop]
    omega
  refine ⟨?_, fun e he => ?_⟩
  · rw [State.sent_trace, List.length_append, length_framesOf, hrange, hlength, Nat.add_assoc]
  · rw [State.sent_trace, List.drop_left] at he
    obtain ⟨b, hb, he⟩ := List.mem_flatMap.1 he
    obtain ⟨l, v, rfl, -⟩ := hinv.frameOfPins_lines (State.mem_bankRange hb) he
    exact ⟨l, v, rfl⟩

/-! ### The levels written to a line -/

section
variable {l : Nat} {levels : List Level}

@[simp] theorem levelsWritten_nil (l : Nat) : levelsWritten l [] = [] := rfl

@[simp] theorem levelsWritten_cfg (l l' : Nat) (es : List LineEvent) : levelsWritten l (.cfg l' :: es) = levelsWritten l es := rfl

@[simp] theorem levelsWritten_wr (l l' : Nat) (v : Level) (es : List LineEvent) :
    levelsWritten l (.wr l' v :: es) = if l' = l then v :: levelsWritten l es else levelsWritten l es := by
  by_cases hl : l' = l <;> simp [levelsWritten, hl]

@[simp] theorem levelsWritten_append (l : Nat) (es fs : List LineEvent) :
    levelsWritten l (es ++ fs) = levelsWritten l es ++ levelsWritten l fs := List.filterMap_append

/-- A line is at the level last written to it, or as it was where none was written (R33). -/
theorem level_after_events {lines : List (Nat × LineImage)} (h : Table.wf LineImage.untouched lines) (es : List LineEvent)
    (l : Nat) :
    (Table.get LineImage.untouched (es.foldl applyEvent lines) l).level =
      (levelsWritten l es).getLast?.elim (Table.get LineImage.untouched lines l).level .known := by
  induction es generalizing lines with
  | nil => rfl
  | cons e rest ih =>
    rw [List.foldl_cons, ih (wf_applyEvent h e), get_applyEvent h]
    cases e with
    | cfg l' => by_cases hl : l = l' <;> simp [hl, LineEvent.line, LineEvent.apply]
    | wr l' v =>
      by_cases hl : l = l'
      · subst hl
        cases hlast : (levelsWritten l rest).getLast? <;> simp [LineEvent.line, LineEvent.apply, List.getLast?_cons, hlast]
      · simp [LineEvent.line, hl, Ne.symm hl]

theorem State.Inv.levelAfter_eq (h : s.Inv) (es : List LineEvent) (l : Nat) :
    levelAfter s es l = (levelsWritten l es).getLast?.elim (s.lineImage l).level .known :=
  level_after_events h.lineOk es l

theorem Bank.linesDistinct.data_ne_clock (h : b.linesDistinct) : b.data ≠ b.clock := h.1
theorem Bank.linesDistinct.data_ne_latch (h : b.linesDistinct) : b.data ≠ b.latch := h.2.1
theorem Bank.linesDistinct.clock_ne_latch (h : b.linesDistinct) : b.clock ≠ b.latch := h.2.2

/-! On a bank with three distinct lines each line sees its own part of the bits and of the frame. -/

theorem levelsWritten_bits_data (h : b.linesDistinct) : levelsWritten b.data (levels.flatMap (emitBit b)) = levels := by
  induction levels with
  | nil => rfl
  | cons v rest ih => simp [emitBit, h.data_ne_clock.symm, ih]

theorem levelsWritten_bits_clock (h : b.linesDistinct) :
    levelsWritten b.clock (levels.flatMap (emitBit b)) = levels.flatMap fun _ => [true, false] := by
  induction levels with
  | nil => rfl
  | cons v rest ih => simp [emitBit, h.data_ne_clock, ih]

theorem levelsWritten_bits_latch (h : b.linesDistinct) : levelsWritten b.latch (levels.flatMap (emitBit b)) = [] := by
  induction levels with
  | nil => rfl
  | cons v rest ih => simp [emitBit, h.data_ne_latch, h.clock_ne_latch, ih]

theorem levelsWritten_frame_data (h : b.linesDistinct) : levelsWritten b.data (frameOfLevels b levels) = levels := by
  simp [frameOfLevels, levelsWritten_bits_data h, h.data_ne_latch.symm]

theorem levelsWritten_frame_clock (h : b.linesDistinct) :
    levelsWritten b.clock (frameOfLevels b levels) = levels.flatMap fun _ => [true, false] := by
  simp [frameOfLevels, levelsWritten_bits_clock h, h.clock_ne_latch.symm]

theorem levelsWritten_frame_latch (h : b.linesDistinct) : levelsWritten b.latch (frameOfLevels b levels) = [false, true] := by
  simp [frameOfLevels, levelsWritten_bits_latch h]

/-- Clock pulses end with the clock low. -/
theorem getLast?_pulses (levels : List Level) :
    (levels.flatMap fun _ => [true, false]).getLast? = if levels = [] then none else some false := by
  induction levels with
  | nil => rfl
  | cons v rest ih => by_cases hrest : rest = [] <;> simp [List.getLast?_cons, ih, hrest]

end

/-- Settles O45: each of the three lines is at the level last written to it, and a frame is writes to these lines alone. -/
theorem frameLeavesLineLevels : Obligations.FrameLeavesLineLevels := by
  intro s k b order t hinv hb hlines ht
  obtain rfl := hinv.xferBank_next hb ht
  have hwrites := fun e => hinv.frameOfPins_lines (List.mem_of_getElem? hb) (order := order) (e := e)
  have hlevel : ∀ l, ((s.sent (frameOfPins s order b)).lineImage l).level =
      (levelsWritten l (frameOfLevels b (levelsShifted s order b))).getLast?.elim (s.lineImage l).level .known := by
    intro l
    rw [State.sent_lineImage, level_after_events hinv.lineOk, frameOfPins_eq_frameOfLevels, State.lineImage]
  have hlast := hinv.getLast?_levelsShifted hb order
  refine ⟨?latch, ?clock, ?data, fun l => ?dir, fun l hdata hclock hlatch => ?other⟩
  case latch => rw [hlevel, levelsWritten_frame_latch hlines]; rfl
  case clock =>
    have hsome : levelsShifted s order b ≠ [] := fun hnil => by simp [hnil] at hlast
    rw [hlevel, levelsWritten_frame_clock hlines, getLast?_pulses, if_neg hsome]; rfl
  case data => rw [hlevel, levelsWritten_frame_data hlines, hlast]; cases order <;> rfl
  case dir =>
    refine dir_of_writes hinv.lineOk l fun e he => ?_
    obtain ⟨l', v, rfl, -⟩ := hwrites e he
    exact ⟨l', v, rfl⟩
  case other =>
    refine get_applyEvents_other hinv.lineOk fun e he => ?_
    obtain ⟨l', v, rfl, rfl | rfl | rfl⟩ := hwrites e he
    · exact Ne.symm hdata
    · exact Ne.symm hclock
    · exact Ne.symm hlatch

/-- Up to every inner cut of a frame the latch has been written exactly once, to 0. -/
theorem levelsWritten_latch_of_cut (h : b.linesDistinct) {levels : List Level} {before after : List LineEvent}
    (hcut : frameOfLevels b levels = before ++ after) (hbefore : before ≠ []) (hafter : after ≠ []) :
    levelsWritten b.latch before = [false] := by
  obtain ⟨e, before', rfl⟩ := List.exists_cons_of_ne_nil hbefore
  obtain ⟨after', e', rfl⟩ := (List.eq_nil_or_concat' after).resolve_left hafter
  have hcons : frameOfLevels b levels = e :: (before' ++ (after' ++ [e'])) := hcut
  obtain ⟨rfl, hrest⟩ := List.cons.inj hcons
  rw [← List.append_assoc] at hrest
  obtain ⟨hbits, -⟩ := List.append_inj' hrest rfl
  have hnone := levelsWritten_bits_latch h (levels := levels)
  rw [hbits, levelsWritten_append, List.append_eq_nil_iff] at hnone
  rw [levelsWritten_wr, if_pos rfl, hnone.1]

/-- Settles O46: the only write to the latch before an inner cut is the first event of the frame. -/
theorem latchLowDuringFrame : Obligations.LatchLowDuringFrame := by
  intro s k b order t before after hinv hb hlines ht htrace hbefore hafter
  obtain rfl := hinv.xferBank_next hb ht
  rw [State.sent_trace, frameOfPins_eq_frameOfLevels, List.append_assoc] at htrace
  have hcut := List.append_cancel_left htrace
  rw [hinv.levelAfter_eq, levelsWritten_latch_of_cut hlines hcut hbefore hafter]
  rfl

/-- A write to the data line begins one of the bits: whole bits stand before it, and its clock pulse comes next (R175). -/
theorem bits_cut_at_data (h : b.linesDistinct) {levels : List Level} {before after : List LineEvent} {v : Level}
    (hcut : levels.flatMap (emitBit b) ++ [.wr b.latch true] = before ++ .wr b.data v :: after) :
    ∃ (earlier : List Level) (rest : List LineEvent), before = earlier.flatMap (emitBit b) ∧
      after = .wr b.clock true :: .wr b.clock false :: rest := by
  induction levels generalizing before with
  | nil =>
    match before with
    | [] => simp [h.data_ne_latch.symm] at hcut
    | e :: before' => simp at hcut
  | cons u levels ih =>
    rw [List.flatMap_cons, emitBit] at hcut
    match before with
    | [] =>
      obtain ⟨-, rfl⟩ : u = v ∧ _ = after := by simpa using hcut
      exact ⟨[], _, rfl, rfl⟩
    | [e] => simp [h.data_ne_clock.symm] at hcut
    | [e, e'] => simp [h.data_ne_clock.symm] at hcut
    | e :: e' :: e'' :: before' =>
      obtain ⟨rfl, rfl, rfl, hrest⟩ : .wr b.data u = e ∧ .wr b.clock true = e' ∧ .wr b.clock false = e'' ∧ _ := by
        simpa using hcut
      obtain ⟨earlier, rest, rfl, hafter⟩ := ih (by simpa using hrest)
      exact ⟨u :: earlier, rest, rfl, hafter⟩

/-- The same in a whole frame, whose first event is not a write to the data line. -/
theorem frame_cut_at_data (h : b.linesDistinct) {levels : List Level} {before after : List LineEvent} {v : Level}
    (hcut : frameOfLevels b levels = before ++ .wr b.data v :: after) :
    ∃ (earlier : List Level) (rest : List LineEvent), before = .wr b.latch false :: earlier.flatMap (emitBit b) ∧
      after = .wr b.clock true :: .wr b.clock false :: rest := by
  match before with
  | [] => simp [frameOfLevels, h.data_ne_latch.symm] at hcut
  | e :: before' =>
    obtain ⟨rfl, hbits⟩ : .wr b.latch false = e ∧ _ := List.cons.inj hcut
    obtain ⟨earlier, rest, rfl, hafter⟩ := bits_cut_at_data h hbits
    exact ⟨earlier, rest, rfl, hafter⟩

/-- Settles O47: before a write to the data line the frame holds whole bits, whose clock pulses end low. -/
theorem dataStableDuringClockPulse : Obligations.DataStableDuringClockPulse := by
  intro s k b order t before v after hinv hb hlines ht hclock htrace
  obtain rfl := hinv.xferBank_next hb ht
  rw [State.sent_trace, frameOfPins_eq_frameOfLevels, List.append_assoc] at htrace
  obtain ⟨earlier, rest, rfl, hafter⟩ := frame_cut_at_data hlines (List.append_cancel_left htrace)
  refine ⟨?_, rest, hafter⟩
  rw [hinv.levelAfter_eq, levelsWritten_wr, if_neg hlines.clock_ne_latch.symm, levelsWritten_bits_clock hlines, getLast?_pulses]
  by_cases hfirst : earlier = []
  · rwa [if_pos hfirst]
  · simp [hfirst]

/-- Settles O48: the data levels of a frame are those of the pins in transfer order, and the two orders are reverses. -/
theorem bitOrdersAreReverses : Obligations.BitOrdersAreReverses := by
  intro s k b t u hinv hb hlines ht hu
  obtain rfl := hinv.xferBank_next hb ht
  obtain rfl := hinv.xferBank_next hb hu
  simp only [State.sent_trace, List.drop_left, frameOfPins_eq_frameOfLevels, levelsWritten_frame_data hlines]
  rw [hinv.levelsShifted_msbFirst hb, List.reverse_reverse]

/-! ### The attached devices -/

theorem Chain.watch_cons (b : Bank) (c : Chain) (e : LineEvent) (es : List LineEvent) :
    c.watch b (e :: es) = (c.see b e).watch b es := rfl

theorem Chain.watch_append (b : Bank) (c : Chain) (es fs : List LineEvent) :
    c.watch b (es ++ fs) = (c.watch b es).watch b fs := List.foldl_append

/-- Each level shifted in moves the earlier ones one stage further. -/
theorem foldl_shiftIn (levels stages : List Level) :
    levels.foldl (flip shiftIn) stages = (levels.reverse ++ stages).take stages.length := by
  induction levels generalizing stages with
  | nil => simp
  | cons v rest ih =>
    have hlength : (shiftIn v stages).length = stages.length := by simp [shiftIn]
    rw [List.foldl_cons, flip, ih, hlength, shiftIn, List.reverse_cons, List.append_assoc, List.take_append, List.take_take,
      List.take_append, Nat.min_eq_left (Nat.sub_le _ _)]
    rfl

/-- One bit on the lines shifts its level into the chain, whatever the chain held (R175, R182). -/
theorem Chain.watch_emitBit (h : b.linesDistinct) (c : Chain) (v : Level) :
    c.watch b (emitBit b v) = { c with stages := shiftIn v c.stages, data := v, clock := false } := by
  simp [Chain.watch, emitBit, Chain.see, h.data_ne_clock, h.data_ne_latch, h.clock_ne_latch, h.data_ne_clock.symm]

/-- The bits of a frame shift in their levels and leave the latch as it was. -/
theorem Chain.watch_bits (h : b.linesDistinct) (c : Chain) (levels : List Level) :
    (c.watch b (levels.flatMap (emitBit b))).stages = levels.foldl (flip shiftIn) c.stages ∧
      (c.watch b (levels.flatMap (emitBit b))).latch = c.latch := by
  induction levels generalizing c with
  | nil => exact ⟨rfl, rfl⟩
  | cons v rest ih =>
    rw [List.flatMap_cons, Chain.watch_append, Chain.watch_emitBit h]
    exact ih _

/-- A frame of as many levels as the chain has stages commits them to the outputs, the last one nearest the controller. -/
theorem Chain.outputs_watch_frame (h : b.linesDistinct) (c : Chain) {levels : List Level}
    (hlength : c.stages.length = levels.length) : (c.watch b (frameOfLevels b levels)).outputs = levels.reverse := by
  have hlow : c.see b (.wr b.latch false) = { c with latch := false } := by
    simp [Chain.see, h.data_ne_latch.symm, h.clock_ne_latch.symm]
  have hcommit : ∀ d : Chain, d.latch = false → (d.watch b [.wr b.latch true]).outputs = d.stages := by
    intro d hd
    simp [Chain.watch, Chain.see, hd]
  obtain ⟨hstages, hlatch⟩ := Chain.watch_bits h { c with latch := false } levels
  rw [frameOfLevels, Chain.watch_cons, hlow, Chain.watch_append, hcommit _ hlatch, hstages, foldl_shiftIn]
  exact List.take_left' (by rw [List.length_reverse, hlength])

/-- Settles O49: the chain shows the levels shifted out in reverse, which are those of the other order. -/
theorem frameShowsStoreOnDevices : Obligations.FrameShowsStoreOnDevices := by
  intro s k b t u c hinv hb hlines hlength ht hu
  obtain rfl := hinv.xferBank_next hb ht
  obtain rfl := hinv.xferBank_next hb hu
  have hshown : ∀ order, (c.watch b (frameOfPins s order b)).outputs = (levelsShifted s order b).reverse := by
    intro order
    rw [frameOfPins_eq_frameOfLevels, Chain.outputs_watch_frame hlines c (by rw [hlength, length_levelsShifted])]
  rw [State.sent_trace, State.sent_trace, List.drop_left, List.drop_left, hshown, hshown]
  refine ⟨?_, ?_⟩
  · rw [hinv.levelsShifted_msbFirst hb, List.reverse_reverse, levelsShifted, pinOrder, List.map_map]; rfl
  · rw [← hinv.levelsShifted_msbFirst hb, levelsShifted, pinOrder, List.map_map]; rfl

end Sys2Proof.Machine


/-! The statements about the Timer Utility (spec/44_timer_utility.md R190 to R194). Each timer command has one equation per
branch of its rule; what a branch that samples the clock leaves unchanged is one lemma about the sample. -/
namespace Sys2Proof.Machine

variable {s t u : State} {i : Instr} {slot duration : Nat} {start now : Instant}

/-! ### The branches of the timer commands -/

theorem exec_startTimer_of_invalid (h : s.cfg.nTmr ≤ slot) : exec (.startTimer slot) s = .next (s.setResult .okUnit) :=
  if_pos h

theorem exec_startTimer_of_valid (h : slot < s.cfg.nTmr) :
    exec (.startTimer slot) s = s.withSample fun now u => (u.setTimer slot (.counting now)).done :=
  if_neg (Nat.not_le.2 h)

theorem exec_stopTimer_of_invalid (h : s.cfg.nTmr ≤ slot) : exec (.stopTimer slot) s = .next (s.setResult .okUnit) :=
  if_pos h

theorem exec_stopTimer_of_valid (h : slot < s.cfg.nTmr) :
    exec (.stopTimer slot) s = .next ((s.setTimer slot .idle).setResult .okUnit) :=
  if_neg (Nat.not_le.2 h)

theorem exec_isElapsed_of_not_counting (h : s.cfg.nTmr ≤ slot ∨ s.timer slot = .idle) :
    exec (.isElapsed slot duration) s = .next (s.setResult (.okVal 0)) := by
  simp only [exec, execIsElapsed]
  obtain hinvalid | hidle := h
  · rw [if_pos hinvalid, State.succeed_eq]
  · rw [hidle]
    exact ite_self _

theorem exec_isElapsed_of_counting (h : slot < s.cfg.nTmr) (hcounting : s.timer slot = .counting start) :
    exec (.isElapsed slot duration) s = s.withSample fun now u =>
      if duration ≤ now.toNat - start.toNat then (u.setTimer slot .idle).succeed 1 else u.succeed 0 := by
  simp only [exec, execIsElapsed]
  rw [if_neg (Nat.not_le.2 h), hcounting]

/-! ### One clock sample -/

/-- A command that samples the clock and then writes slots and `RESULT` changes nothing else but the environment's clock
fields. -/
theorem State.sampleClock_frame (hu : s.sampleClock = some (now, u)) (slots : List (Nat × Timer)) (r : Result) :
    { u with tmr := slots, result := r } =
      { s with tmr := slots, result := r, clock := s.clock.tail, lastSample := now, draws := u.draws } := by
  obtain ⟨-, -, hsampled, -⟩ := State.sampleClock_some hu
  rw [hsampled]

/-- After a clock sample, the slot written holds the new value and every other slot what it held before the sample. -/
theorem State.Inv.timer_setTimer_sample (h : s.Inv) (hu : s.sampleClock = some (now, u)) (slot : Nat) (x : Timer) (j : Nat) :
    (u.setTimer slot x).timer j = if j = slot then x else s.timer j := by
  rw [(h.sample hu).1.timer_setTimer, State.sampleClock_timer hu]

/-- No slot counts from an instant later than a fresh sample (R77(g), R193). -/
theorem State.Inv.start_le_sample (h : s.Inv) (hcounting : s.timer slot = .counting start)
    (hu : s.sampleClock = some (now, u)) : start ≤ now :=
  BitVec.le_trans (h.tmrStarted slot start hcounting) (State.sampleClock_some hu).1

theorem State.lastSample_le_sampleClock (hu : s.sampleClock = some (now, u)) : s.lastSample ≤ u.lastSample := by
  obtain ⟨hle, -, hsampled, -⟩ := State.sampleClock_some hu
  rw [hsampled]
  exact hle

/-- Only START_TIMER and IS_ELAPSED sample the clock, and a sample is not below the newest one (R193). -/
theorem Effect.clock (he : Effect s i t) :
    (t.clock = s.clock ∧ t.lastSample = s.lastSample ∧ t.draws = s.draws) ∨
      (s.lastSample ≤ t.lastSample ∧ ((∃ slot, i = .startTimer slot) ∨ ∃ slot duration, i = .isElapsed slot duration)) := by
  cases he with
  | result | store | create | transfer | stop => exact .inl ⟨rfl, rfl, rfl⟩
  | start slot _ _ _ hu => exact .inr ⟨by simpa using State.lastSample_le_sampleClock hu, .inl ⟨slot, rfl⟩⟩
  | elapsed slot duration _ _ _ _ _ hu => exact .inr ⟨by simpa using State.lastSample_le_sampleClock hu, .inr ⟨slot, duration, rfl⟩⟩
  | pending slot duration _ _ _ _ _ hu => exact .inr ⟨by simpa using State.lastSample_le_sampleClock hu, .inr ⟨slot, duration, rfl⟩⟩

/-! ### The statements -/

/-- Settles O50: a lawful clock gives a sample, and the branch of a valid slot writes it to the slot. -/
theorem startTimerCapturesInstant : Obligations.StartTimerCapturesInstant := by
  intro s slot hinv
  refine ⟨fun hslot hclock => ?_, exec_startTimer_of_invalid⟩
  obtain ⟨now, u, hu⟩ := hclock.sample
  obtain ⟨hle, hpresented, -, -⟩ := State.sampleClock_some hu
  have hslots := hinv.timer_setTimer_sample hu slot (.counting now)
  refine ⟨(u.setTimer slot (.counting now)).setResult .okUnit, now, ?_, hle, hpresented, ?_, fun j hj => ?_, ?_⟩
  · rw [exec_startTimer_of_valid hslot, State.withSample_of hu, State.done_eq]
  · exact (hslots slot).trans (if_pos rfl)
  · exact (hslots j).trans (if_neg hj)
  · exact State.sampleClock_frame hu _ _

/-- Settles O51: the branch of a valid slot idles it, and IS_ELAPSED of an idle slot is false. -/
theorem stopTimerIdlesSlot : Obligations.StopTimerIdlesSlot := by
  intro s slot hinv
  refine ⟨fun hslot => ?_, exec_stopTimer_of_invalid⟩
  have hslots := hinv.timer_setTimer slot .idle
  have hidle : ((s.setTimer slot .idle).setResult .okUnit).timer slot = .idle := (hslots slot).trans (if_pos rfl)
  exact ⟨_, exec_stopTimer_of_valid hslot, hidle, fun j hj => (hslots j).trans (if_neg hj), rfl,
    fun _ => exec_isElapsed_of_not_counting (.inr hidle)⟩

/-- Settles O52: the slot's start is not later than the sample, so the subtraction of R192 is exact and the two answers are
told apart by `start + duration`. -/
theorem isElapsedConsumesSlot : Obligations.IsElapsedConsumesSlot := by
  intro s slot duration hinv
  refine ⟨exec_isElapsed_of_not_counting, fun start hslot hcounting hclock => ?_⟩
  obtain ⟨now, u, hu⟩ := hclock.sample
  obtain ⟨hle, hpresented, -, -⟩ := State.sampleClock_some hu
  have hstart : start ≤ now := hinv.start_le_sample hcounting hu
  have hstartNat : start.toNat ≤ now.toNat := hstart
  have hexec := exec_isElapsed_of_counting (duration := duration) hslot hcounting
  rw [State.withSample_of hu] at hexec
  by_cases helapsed : start.toNat + duration ≤ now.toNat
  · have hslots := hinv.timer_setTimer_sample hu slot .idle
    rw [if_pos (by omega)] at hexec
    exact ⟨_, now, hexec, hle, hstart, hpresented, fun _ => ⟨rfl, (hslots slot).trans (if_pos rfl)⟩,
      fun hpending => absurd helapsed (Nat.not_le.2 hpending), fun j hj => (hslots j).trans (if_neg hj),
      State.sampleClock_frame hu _ _⟩
  · rw [if_neg (by omega)] at hexec
    exact ⟨_, now, hexec, hle, hstart, hpresented, fun h => absurd h helapsed,
      fun _ => ⟨rfl, (State.sampleClock_timer hu slot).trans hcounting⟩, fun j _ => State.sampleClock_timer hu j,
      State.sampleClock_frame hu _ _⟩

/-- Settles O55: the two cases of `Effect.clock`. -/
theorem clockNeverGoesBack : Obligations.ClockNeverGoesBack := by
  intro i s t h
  obtain ⟨hclock, hlast, hdraws⟩ | ⟨hle, ⟨slot, hstart⟩ | ⟨slot, duration, helapsed⟩⟩ := (exec_effect h).clock
  · exact ⟨hlast ▸ BitVec.le_refl _, fun _ _ => ⟨hclock, hlast, hdraws⟩⟩
  · exact ⟨hle, fun hne _ => absurd hstart (hne slot)⟩
  · exact ⟨hle, fun _ hne => absurd helapsed (hne slot duration)⟩

/-- Settles O53: both branches that sample the clock are refused where it is not lawful. -/
theorem backwardClockIsNoRun : Obligations.BackwardClockIsNoRun := by
  intro s slot duration start hclock hslot
  refine ⟨?_, fun hcounting => ?_⟩
  · rw [exec_startTimer_of_valid hslot, State.withSample_refused hclock]
  · rw [exec_isElapsed_of_counting hslot hcounting, State.withSample_refused hclock]

end Sys2Proof.Machine

/-! The statements about failures (spec/60_exceptions.md): a failing command writes `RESULT` alone (R203), and a failing
construction yields no instance (R205, R230). -/
namespace Sys2Proof.Machine

variable {s t : State} {i : Instr}

/-- Every effect but the one that writes `RESULT` alone reports success (R203). -/
theorem Effect.eq_setResult_of_err (he : Effect s i t) {kind : FailKind} (hfail : t.result = .err kind) :
    t = s.setResult (.err kind) := by
  cases he with
  | result => rw [← hfail, State.setResult_result]
  | store _ _ r _ _ _ _ hok =>
    obtain rfl : r = .err kind := hfail
    cases hok
  | create | transfer | start | stop | elapsed | pending => cases hfail

/-- Settles O56: of the effects of a legal word's command, only one can report a failure, and an illegal word writes
`RESULT` alone. -/
theorem failureChangesOnlyResult : Obligations.FailureChangesOnlyResult := by
  intro s t kind h hfail
  obtain ⟨w, later, hcommands, ⟨i, -, hexec⟩ | ⟨e, -, rfl⟩⟩ := step_next h
  · rw [hcommands]
    exact (exec_effect hexec).eq_setResult_of_err hfail
  · rw [hcommands, ← hfail]
    rfl

theorem construct_of_illegal {nDev nTmr : Nat} (h : ¬ (1 ≤ nDev ∧ nDev ≤ 255 ∧ nTmr ≤ 255)) (allocOk : Bool) :
    construct nDev nTmr allocOk = .error .badParameters := by
  rw [construct, if_neg (mt Config.wf_iff.1 h)]

theorem construct_of_no_storage {nDev nTmr : Nat} (h : 1 ≤ nDev ∧ nDev ≤ 255 ∧ nTmr ≤ 255) :
    construct nDev nTmr false = .error .eAlloc := by
  rw [construct, if_pos (Config.wf_iff.2 h), if_neg Bool.false_ne_true]

/-- Settles O3: the parameters are tested before the storage. -/
theorem constructionFailsWithoutInstance : Obligations.ConstructionFailsWithoutInstance :=
  ⟨fun _ _ h1 h2 h3 => construct_of_no_storage ⟨h1, h2, h3⟩,
    fun _ _ allocOk hout => construct_of_illegal (by omega) allocOk⟩

end Sys2Proof.Machine

/-! The statements about reset and hazards (spec/70_reset_and_hazards.md): every command terminates (R255). -/
namespace Sys2Proof.Machine

variable {s : State}

/-- Under a lawful clock every command completes from a sound state: the one way out is a sample that goes back (U3). -/
theorem State.Inv.exec_completes_of_clockOk (h : s.Inv) (hclock : s.ClockOk) (i : Instr) : ∃ t, exec i s = .next t :=
  (h.exec_completes i).resolve_right fun hrefused => hrefused.2 hclock

/-- Settles O7: taking the command word keeps the invariant and the clock, so a legal word's command completes, and an
illegal word ends in `E_ILLEGAL`. -/
theorem stepCompletes : Obligations.StepCompletes := by
  intro s hinv hclock hissued
  obtain ⟨w, later, hcommands⟩ := List.exists_cons_of_ne_nil hissued
  cases hdecode : decode w with
  | ok i =>
    rw [stepRunsDecodedCommand s w later i hcommands hdecode]
    exact (hinv.withCommands later).exec_completes_of_clockOk hclock i
  | error e => exact ⟨_, stepRefusesIllegalWord s w later e hcommands hdecode⟩

end Sys2Proof.Machine
